-- ==== Sys2Proof/Word.lean ====
section
/-! DEFINITION. The word types of the CORE (00_scope.md R4, 30_encoding.md R61). -/

namespace Sys2Proof

/-- XLEN = 8: a register, a data byte, a literal and a register-index field (R4). -/
abbrev Byte := BitVec 8

/-- CELL_W = 24: one memory cell (R4, R61). -/
abbrev CellWord := BitVec 24

/-- The instruction body, OPC then A then B, that the host pushes (R37, R63). -/
abbrev Body := BitVec 20

/-- An index that passed the check of R99: one of the NREGS = 8 registers (R10). -/
abbrev RegIdx := Fin 8

end Sys2Proof
end

