-- ==== Sys2Proof/Config.lean ====
section
/-! DEFINITION. What is fixed for one machine and is not state: the two parameters of 00_scope.md R4
that the spec lets a model take as arguments, and the two widths of R4 that follow from the capacity. -/

namespace Sys2Proof

/-- OVERFLOW_MODE: what ADD and SUB do when the result leaves 0 to 255 (R4, R117; D7). -/
inductive OverflowMode where
  | fault
  | wrap
  deriving DecidableEq, Repr

/-- The configuration of a CORE (R4). -/
structure Config where
  /-- MEM_CELLS: capacity of the memory in cells, any integer from 1 up (R4, R34; D5). -/
  memCells : Nat
  /-- OVERFLOW_MODE (R117; D7). -/
  overflowMode : OverflowMode
  deriving DecidableEq, Repr

/-- MEM_CELLS is at least 1; R4 sets no upper bound. -/
abbrev Config.WF (cfg : Config) : Prop := 1 ≤ cfg.memCells

/-- PC_W: the number of bits needed to hold MEM_CELLS itself (R4; D6). -/
def Config.pcW (cfg : Config) : Nat := cfg.memCells.log2 + 1

/-- ADDR_W: ceil(log2(MEM_CELLS)), the width of a cell address (R4; D6). -/
def Config.addrW (cfg : Config) : Nat :=
  if cfg.memCells ≤ 1 then 0 else (cfg.memCells - 1).log2 + 1

/-- A value of PC_W bits: `pc`, `LEN`, `FAULT_ADDR` and a host address operand (R4). -/
abbrev PcWord (cfg : Config) := BitVec cfg.pcW

/-- The values this hardware takes: 2048 cells, overflow faults (R4), so PC_W is 12 and ADDR_W is 11.
`exec`, `step` and `hostStep` run at this configuration; log entries 5 and 6. -/
def Config.core : Config := { memCells := 2048, overflowMode := .fault }

end Sys2Proof
end

