-- ==== Sys2Proof/Syntax.lean ====
section
/-! DEFINITION. The abstract instructions (30_encoding.md R60): ten variants, each with exactly the
operands it needs (C9). An operand is a raw byte (R66); an index above 7 is no illegal instruction (R71). -/

namespace Sys2Proof

/-- One constructor per row of spec/opcode_table.json, in the table's order. -/
inductive Instr where
  /-- ADD regA, regB (R111). -/
  | add (a b : Byte)
  /-- SUB regA, regB (R112). -/
  | sub (a b : Byte)
  /-- LD regDst, literal (R130). -/
  | ld (a v : Byte)
  /-- LDA regDst, regSrc (R131). -/
  | lda (a b : Byte)
  /-- AND regA, regB (R113). -/
  | and (a b : Byte)
  /-- OR regA, regB (R114). -/
  | or (a b : Byte)
  /-- XOR regA, regB (R115). -/
  | xor (a b : Byte)
  /-- OUT reg (R140). -/
  | out (a : Byte)
  /-- NOT reg (R116). -/
  | not (a : Byte)
  /-- HLT (R141). -/
  | hlt
  deriving DecidableEq, Repr

end Sys2Proof
end

