-- ==== Sys2Proof/WellFormed.lean ====
section
/-! DEFINITION. Well-formedness. An `Instr` carries bytes, so every term of it is a storable instruction
(30_encoding.md R60, R66, R71). What can be ill-formed is a cell word (R61, R69, R70), and what can be
wrong with an instruction when it executes is a register operand above 7 (40_fetch_execute.md R99). -/

namespace Sys2Proof

/-- RSV, bits 22:20, is zero in both kinds of cell (R61, R70). -/
def wordRsvZero (w : CellWord) : Bool := w.toNat / 2 ^ 20 % 8 == 0

/-- Bits 19:8 are zero; asked of a Data cell (R61, R62, R70). -/
def wordHighZero (w : CellWord) : Bool := w.toNat / 2 ^ 8 % 2 ^ 12 == 0

/-- OPC, bits 19:16, is one of the ten assigned numbers; asked of an Instruction cell (R64, R69). -/
def wordOpcAssigned (w : CellWord) : Bool := w.toNat / 2 ^ 16 % 16 ≤ 9

/-- The operand fields the format leaves unused are zero: B of OUT and NOT, A and B of HLT (R65, R70). -/
def wordUnusedZero (w : CellWord) : Bool :=
  match w.toNat / 2 ^ 16 % 16 with
  | 7 => w.toNat % 2 ^ 8 == 0
  | 8 => w.toNat % 2 ^ 8 == 0
  | 9 => w.toNat % 2 ^ 16 == 0
  | _ => true

/-- TAG, bit 23: the word is an Instruction cell (R61). -/
def wordIsInstr (w : CellWord) : Bool := w.toNat / 2 ^ 23 == 1

/-- A cell word that breaks no requirement of R61, R69 and R70. Written from those rules on the word's
number, apart from the decoder of R67. -/
def wordWellFormed (w : CellWord) : Bool :=
  wordRsvZero w && (if wordIsInstr w then wordOpcAssigned w && wordUnusedZero w else wordHighZero w)

/-- The register-index operands of an instruction, in the order they are checked (R99).
The literal of LD is none (R60, R66). -/
def Instr.regOperands : Instr → List Byte
  | .add a b => [a, b]
  | .sub a b => [a, b]
  | .ld a _ => [a]
  | .lda a b => [a, b]
  | .and a b => [a, b]
  | .or a b => [a, b]
  | .xor a b => [a, b]
  | .out a => [a]
  | .not a => [a]
  | .hlt => []

/-- Every register operand is one of R0 to R7: executing it raises no RegisterIndexViolation (R99, U2). -/
def Instr.regsValid (i : Instr) : Bool := i.regOperands.all (fun r => r.toNat ≤ 7)

end Sys2Proof
end

