-- ==== Sys2Proof/Decode.lean ====
section
/-! DEFINITION. The cell word: its fields, the total decoder and the encoder
(30_encoding.md R61 to R70; decisions D1 to D4 of the spec). -/

namespace Sys2Proof

/-- Why a cell word is Invalid (R67). The spec's `Invalid(w)` gives no reason; the names are the
model's and nothing depends on them (log entry 9). -/
inductive BadWord where
  /-- TAG = 0 with a non-zero bit in 22:8 (R67, R70). -/
  | dataBitsNonZero
  /-- TAG = 1 with RSV non-zero (R67, R70). -/
  | reservedNonZero
  /-- TAG = 1 with OPC 10 to 15 (R69). -/
  | unassignedOpcode
  /-- An unused operand field of OUT, NOT or HLT is non-zero (R70). -/
  | unusedFieldNonZero
  deriving DecidableEq, Repr

/-- The three results of decoding a cell word (R67). -/
inductive DecodedCell where
  | data (v : Byte)
  | instr (i : Instr)
  | invalid (w : CellWord) (why : BadWord)
  deriving DecidableEq, Repr

/-- TAG, bit 23: true for an Instruction cell (R61). -/
def tagOf (w : CellWord) : Bool := w.getLsbD 23

/-- RSV, bits 22:20 (R61). -/
def rsvOf (w : CellWord) : BitVec 3 := w.extractLsb' 20 3

/-- OPC, bits 19:16 (R61). -/
def opcOf (w : CellWord) : BitVec 4 := w.extractLsb' 16 4

/-- A, bits 15:8 (R61). -/
def fieldA (w : CellWord) : Byte := w.extractLsb' 8 8

/-- B, or BYTE in a Data cell, bits 7:0 (R61). -/
def fieldB (w : CellWord) : Byte := w.extractLsb' 0 8

/-- Bits 22:8, which a Data cell must have zero (R62, R67). -/
def dataHigh (w : CellWord) : BitVec 15 := w.extractLsb' 8 15

/-- The Instruction-tagged part of `decode_cell`, after the RSV check (R67). -/
def decodeInstr (w : CellWord) : DecodedCell :=
  match (opcOf w).toNat with
  | 0 => .instr (.add (fieldA w) (fieldB w))
  | 1 => .instr (.sub (fieldA w) (fieldB w))
  | 2 => .instr (.ld (fieldA w) (fieldB w))
  | 3 => .instr (.lda (fieldA w) (fieldB w))
  | 4 => .instr (.and (fieldA w) (fieldB w))
  | 5 => .instr (.or (fieldA w) (fieldB w))
  | 6 => .instr (.xor (fieldA w) (fieldB w))
  | 7 => if fieldB w = 0#8 then .instr (.out (fieldA w)) else .invalid w .unusedFieldNonZero
  | 8 => if fieldB w = 0#8 then .instr (.not (fieldA w)) else .invalid w .unusedFieldNonZero
  | 9 => if fieldA w = 0#8 ∧ fieldB w = 0#8 then .instr .hlt else .invalid w .unusedFieldNonZero
  | _ => .invalid w .unassignedOpcode

/-- `decode_cell`: total on 24-bit words (R67). -/
def decodeCell (w : CellWord) : DecodedCell :=
  if tagOf w then
    if rsvOf w = 0#3 then decodeInstr w else .invalid w .reservedNonZero
  else if dataHigh w = 0#15 then .data (fieldB w)
  else .invalid w .dataBitsNonZero

/-- `word(Data(v))` (R62). -/
def wordOfData (v : Byte) : CellWord := v.zeroExtend 24

/-- The word of an Instruction cell holding a body: TAG 1, RSV 0 (R63, R37). -/
def wordOfBody (b : Body) : CellWord := (8#4) ++ b

/-- The opcode number of an instruction (R64). -/
def Instr.opcode : Instr → BitVec 4
  | .add _ _ => 0
  | .sub _ _ => 1
  | .ld _ _ => 2
  | .lda _ _ => 3
  | .and _ _ => 4
  | .or _ _ => 5
  | .xor _ _ => 6
  | .out _ => 7
  | .not _ => 8
  | .hlt => 9

/-- Operand field A of an instruction, zero where its format has none (R65). -/
def Instr.operandA : Instr → Byte
  | .add a _ => a
  | .sub a _ => a
  | .ld a _ => a
  | .lda a _ => a
  | .and a _ => a
  | .or a _ => a
  | .xor a _ => a
  | .out a => a
  | .not a => a
  | .hlt => 0

/-- Operand field B of an instruction, zero where its format has none (R65). -/
def Instr.operandB : Instr → Byte
  | .add _ b => b
  | .sub _ b => b
  | .ld _ v => v
  | .lda _ b => b
  | .and _ b => b
  | .or _ b => b
  | .xor _ b => b
  | .out _ => 0
  | .not _ => 0
  | .hlt => 0

/-- The instruction body, the low 20 bits of the word (R63). -/
def Instr.body (i : Instr) : Body := i.opcode ++ (i.operandA ++ i.operandB)

/-- `word(Instruction(op))` (R63). -/
def encode (i : Instr) : CellWord := wordOfBody i.body

/-- The instruction the decoder reads from a table word of `nbits` bits. The table writes a word as one
24-bit number, bit 0 least significant (R43, R61), which is the numbering asked for. -/
def decodeTableWord (nbits w : Nat) : Option Instr :=
  match decodeCell (BitVec.ofNat 24 (w % 2 ^ nbits)) with
  | .instr i => some i
  | _ => none

end Sys2Proof
end

