-- ==== Sys2Proof/Machine/State.lean ====
section
/-! DEFINITION. The state of the CORE (10_state.md R10 to R23), its reset value, and the ways a step can
stop. Plain data only. -/

namespace Sys2Proof.Machine

/-- RUNSTATE (R18). -/
inductive RunState where
  /-- after reset: the host builds the memory image, the CORE does not step -/
  | load
  /-- the execute phase -/
  | run
  /-- the loop ended normally -/
  | halted
  /-- a fatal failure happened -/
  | fault
  deriving DecidableEq, Repr

/-- FAULT_CAUSE (R19, R181). Code 7 is reserved and never produced, so no constructor stands for it. -/
inductive FaultCause where
  | none
  | memoryTypeViolation
  | registerIndexViolation
  | arithmeticOverflow
  | memoryRangeViolation
  | illegalEncoding
  | memoryCapacityExceeded
  deriving DecidableEq, Repr

/-- The cells of the memory as (address, cell word) pairs, addresses strictly rising, no pair holding
what an unlisted address holds (`Memory.wf` in Machine/Ops.lean; log entry 1). -/
abbrev Memory := List (Nat × CellWord)

/-- The complete state of the CORE and the trace it has emitted (10_state.md, opening tuple; R21).
`pc`, LEN and FAULT_ADDR are PC_W bits wide (R14, R17, R20) and PC_W follows MEM_CELLS (R4), so the width
is a parameter of the type: `State cfg.pcW` is the state of a CORE at `cfg`, and `State` alone is the
state of this hardware, at `Config.core` (log entry 6). -/
structure State (pcW : Nat := Config.core.pcW) where
  /-- x[0] to x[7] (R10) -/
  regs : Vector Byte 8
  /-- the address of the next cell to fetch (R13, R14) -/
  pc : BitVec pcW
  /-- MEM (R16) -/
  mem : Memory
  /-- LEN, the number of cells held (R17) -/
  len : BitVec pcW
  /-- RUNSTATE (R18) -/
  runState : RunState
  /-- FAULT_CAUSE (R19) -/
  faultCause : FaultCause
  /-- FAULT_ADDR (R20) -/
  faultAddr : BitVec pcW
  /-- OUTLOG, oldest first (R21; log entry 8) -/
  outlog : List Byte
  deriving DecidableEq, Repr

/-- The state after reset at any width (R23, R210): every value is the spec's. -/
def State.resetAt (pcW : Nat) : State pcW :=
  { regs := Vector.replicate 8 0
    pc := 0
    mem := []
    len := 0
    runState := .load
    faultCause := .none
    faultAddr := 0
    outlog := [] }

/-- The state after reset of this hardware (R23, R210). -/
def State.reset : State := State.resetAt Config.core.pcW

/-- Why a step stops with a fault. No instruction's meaning raises one: a fault of the spec is taken, as
a NEXT state with RUNSTATE = FAULT (R191). -/
inductive Fault where
  /-- Raised by `engineStep` when a step is asked of a CORE whose RUNSTATE is FAULT: there it has no step
  (R90, R192). It carries the diagnostic of R200, the address as a number. Safe: the hardware takes no
  step there either. -/
  | coreInFault (cause : FaultCause) (addr : Nat)
  deriving DecidableEq, Repr

/-- Why a step is refused. -/
inductive Refusal where
  /-- The instruction has no meaning yet. No arm of `exec` answers it any more. Safe: the model stops. -/
  | notModelled (mnemonic : String)
  /-- Raised by `engineStep` when a step is asked of a CORE whose RUNSTATE is LOAD: it does not step until
  the host gives H_START (R90, R159). Safe: the hardware takes no step there either. -/
  | notStarted
  /-- Raised by `engineStep` when a step is asked of a CORE whose RUNSTATE is HALTED: the run has ended
  and only reset leaves that state (R90, R215). Safe: the hardware takes no step there either. -/
  | runEnded
  deriving DecidableEq, Repr

/-- What a step answers. -/
abbrev StepResult (pcW : Nat) := Host.Outcome (State pcW) Fault Refusal

end Sys2Proof.Machine
end

