-- ==== Sys2Proof/Machine/Ops.lean ====
section
/-! DEFINITION. The named operations over registers and memory, fault entry, and the seven memory
primitives (20_memory.md R35 to R42; 60_exceptions.md R191). There is no return from a fault (R192), so
none is defined. -/

namespace Sys2Proof.Machine

variable {pcW : Nat}

/-! ## Status codes -/

/-- The 2-bit number of a run state (R18). -/
def RunState.code : RunState → BitVec 2
  | .load => 0
  | .run => 1
  | .halted => 2
  | .fault => 3

/-- The 3-bit number of a fault cause (R181). -/
def FaultCause.code : FaultCause → BitVec 3
  | .none => 0
  | .memoryTypeViolation => 1
  | .registerIndexViolation => 2
  | .arithmeticOverflow => 3
  | .memoryRangeViolation => 4
  | .illegalEncoding => 5
  | .memoryCapacityExceeded => 6

/-! ## Memory as sorted pairs -/

/-- What an address with no pair holds: the word of Data(0) (R62). Addresses below LEN only; at or above
LEN an access is a range violation whatever is listed (R33; log entry 1). -/
def blankCell : CellWord := 0

/-- The cell word at an address. -/
def Memory.read (a : Nat) : Memory → CellWord
  | [] => blankCell
  | (k, w) :: rest => if k = a then w else Memory.read a rest

/-- Put a pair at its place in rising order, replacing the pair of that address. -/
def Memory.insert (a : Nat) (w : CellWord) : Memory → Memory
  | [] => [(a, w)]
  | (k, v) :: rest =>
    if a < k then (a, w) :: (k, v) :: rest
    else if a = k then (a, w) :: rest
    else (k, v) :: Memory.insert a w rest

/-- Drop the pair of an address. -/
def Memory.erase (a : Nat) (m : Memory) : Memory := m.filter (fun p => p.1 ≠ a)

/-- Store a cell word; storing `blankCell` drops the pair, so the form stays canonical. -/
def Memory.write (a : Nat) (w : CellWord) (m : Memory) : Memory :=
  if w = blankCell then Memory.erase a m else Memory.insert a w m

/-- The canonical form: addresses strictly rising, no pair holding what an unlisted address holds. -/
abbrev Memory.wf (m : Memory) : Prop :=
  m.Pairwise (fun p q => p.1 < q.1) ∧ ∀ p ∈ m, p.2 ≠ blankCell

/-! ## State updates -/

/-- `x[i]` (R10). -/
def State.reg (s : State pcW) (r : RegIdx) : Byte := s.regs[r.val]

/-- `x[i] <- v` (R10). -/
def State.writeReg (r : RegIdx) (v : Byte) (s : State pcW) : State pcW :=
  { s with regs := s.regs.set r.val v r.isLt }

/-- `pc <- pc + 1` (R93). -/
def State.advancePc (s : State pcW) : State pcW := { s with pc := s.pc + 1 }

/-- `RUNSTATE <- HALTED` (R91, R95). -/
def State.halt (s : State pcW) : State pcW := { s with runState := .halted }

/-- `RUNSTATE <- RUN` (R159). -/
def State.start (s : State pcW) : State pcW := { s with runState := .run }

/-- `Emit(v)` (R143): delivery always succeeds and appends to OUTLOG. -/
def State.emit (v : Byte) (s : State pcW) : State pcW := { s with outlog := s.outlog ++ [v] }

/-- Fault entry, `raise F(addr)` (R191): exactly three items are written. -/
def State.raise (c : FaultCause) (addr : BitVec pcW) (s : State pcW) : State pcW :=
  { s with faultCause := c, faultAddr := addr, runState := .fault }

/-- The cell word at an address. -/
def State.cell (s : State pcW) (a : BitVec pcW) : CellWord := Memory.read a.toNat s.mem

/-- Store a cell word at an address; LEN is unchanged. -/
def State.setCell (a : BitVec pcW) (w : CellWord) (s : State pcW) : State pcW :=
  { s with mem := Memory.write a.toNat w s.mem }

/-- Change LEN. -/
def State.setLen (n : BitVec pcW) (s : State pcW) : State pcW := { s with len := n }

/-! ## The memory primitives -/

/-- What a primitive that raises records: the cause and the address (R191). -/
structure Raise (pcW : Nat) where
  cause : FaultCause
  addr : BitVec pcW
  deriving DecidableEq, Repr

/-- `MemLen()` (R35). -/
def memLen (s : State pcW) : BitVec pcW := s.len

/-- Append one cell word, the common part of R36 and R37. -/
def memAppend (cfg : Config) (w : CellWord) (s : State cfg.pcW) :
    Except (Raise cfg.pcW) (State cfg.pcW) :=
  if s.len.toNat = cfg.memCells then .error ⟨.memoryCapacityExceeded, s.len⟩
  else .ok ((s.setCell s.len w).setLen (s.len + 1))

/-- `MemAppendData(v)` (R36). -/
def memAppendData (cfg : Config) (v : Byte) (s : State cfg.pcW) :
    Except (Raise cfg.pcW) (State cfg.pcW) :=
  memAppend cfg (wordOfData v) s

/-- `MemAppendInstr(i)` (R37): the memory sets the tag and the reserved bits, the body is not checked. -/
def memAppendInstr (cfg : Config) (i : Body) (s : State cfg.pcW) :
    Except (Raise cfg.pcW) (State cfg.pcW) :=
  memAppend cfg (wordOfBody i) s

/-- Use a cell word as an instruction: tag, then well-formedness (R38, R39, R190). -/
def useAsInstr (w : CellWord) (a : BitVec pcW) : Except (Raise pcW) Instr :=
  if tagOf w then
    match decodeCell w with
    | .instr i => .ok i
    | _ => .error ⟨.illegalEncoding, a⟩
  else .error ⟨.memoryTypeViolation, a⟩

/-- `MemFetch(a)` (R38). -/
def memFetch (a : BitVec pcW) (s : State pcW) : Except (Raise pcW) Instr :=
  if s.len ≤ a then .error ⟨.memoryRangeViolation, a⟩ else useAsInstr (s.cell a) a

/-- `MemPop()` (R39): on a raise nothing is removed (D17). The popped cell is no longer part of the
state (R17), so its pair is dropped. -/
def memPop (s : State pcW) : Except (Raise pcW) (State pcW × Instr) :=
  if s.len = 0 then .error ⟨.memoryRangeViolation, 0⟩
  else
    match useAsInstr (s.cell (s.len - 1)) (s.len - 1) with
    | .ok i => .ok ((s.setCell (s.len - 1) blankCell).setLen (s.len - 1), i)
    | .error r => .error r

/-- `MemRead(a, 1)` (R40). -/
def memRead (a : BitVec pcW) (s : State pcW) : Except (Raise pcW) Byte :=
  if s.len ≤ a then .error ⟨.memoryRangeViolation, a⟩
  else if tagOf (s.cell a) then .error ⟨.memoryTypeViolation, a⟩
  else if dataHigh (s.cell a) = 0#15 then .ok (fieldB (s.cell a))
  else .error ⟨.illegalEncoding, a⟩

/-- `MemWrite(a, 1, v)` (R41): no kind precondition (C2), no extension of the memory. -/
def memWrite (a : BitVec pcW) (v : Byte) (s : State pcW) : Except (Raise pcW) (State pcW) :=
  if s.len ≤ a then .error ⟨.memoryRangeViolation, a⟩ else .ok (s.setCell a (wordOfData v))

end Sys2Proof.Machine
end

