-- ==== Sys2Proof/Machine/Operands.lean ====
section
/-! DEFINITION. The operand forms: a register index that is checked when the instruction executes
(40_fetch_execute.md R99) and a literal that is taken as it stands (30_encoding.md R66). There are no
other operand forms (R66, R132). -/

namespace Sys2Proof.Machine

variable {pcW : Nat}

/-- The register an index names, if it is one of R0 to R7 (R99). -/
def regIdx? (i : Byte) : Option RegIdx :=
  if h : i.toNat < 8 then some ⟨i.toNat, h⟩ else none

/-- `CheckReg(i)` (R99), then go on with the register. `pc` has been incremented, so `pc - 1` is the
instruction's own address. -/
def withReg (i : Byte) (s : State pcW) (k : RegIdx → State pcW) : State pcW :=
  match regIdx? i with
  | some r => k r
  | none => s.raise .registerIndexViolation (s.pc - 1)

/-- `CheckReg(a); CheckReg(b)` (R99), then go on with both registers. -/
def withRegs (a b : Byte) (s : State pcW) (k : RegIdx → RegIdx → State pcW) : State pcW :=
  withReg a s fun ra => withReg b s fun rb => k ra rb

end Sys2Proof.Machine
end

