-- ==== Sys2Proof/Machine/Flags.lean ====
section
/-! DEFINITION. The machine has no flags (10_state.md R15, 41_alu.md R118). What stands here is the one
condition an ALU result is tested for: its range (41_alu.md R117). -/

namespace Sys2Proof.Machine

variable {pcW : Nat}

/-- `ovf(s)` (R117): the exact result if it is a byte; else nothing (an overflow to be raised) or, with
`wrap`, the residue mod 256. -/
def ovf (mode : OverflowMode) (s : Int) : Option Byte :=
  if 0 ≤ s ∧ s ≤ 255 then some (BitVec.ofInt 8 s)
  else
    match mode with
    | .fault => none
    | .wrap => some (BitVec.ofInt 8 s)

/-- Write a result to R0 (R110), or raise ArithmeticOverflow where there is none (R117, R184). -/
def writeResult (v : Option Byte) (s : State pcW) : State pcW :=
  match v with
  | some v => s.writeReg 0 v
  | none => s.raise .arithmeticOverflow (s.pc - 1)

end Sys2Proof.Machine
end

