-- ==== Sys2Proof/Machine/Alu.lean ====
section
/-! DEFINITION. ADD, SUB, AND, OR, XOR, NOT (41_alu.md R110 to R118). -/

namespace Sys2Proof.Machine

variable {pcW : Nat}

/-- A two-operand ALU instruction (R110): check both indices, read both sources, write R0.
`f` gives no value where the result is out of range and the configuration faults. -/
def binaryAlu (f : Byte → Byte → Option Byte) (a b : Byte) (s : State pcW) : State pcW :=
  withRegs a b s fun ra rb => writeResult (f (s.reg ra) (s.reg rb)) s

/-- ADD's result: the exact sum through `ovf` (R111, R117). -/
def addResult (mode : OverflowMode) (x y : Byte) : Option Byte :=
  ovf mode ((x.toNat : Int) + (y.toNat : Int))

/-- SUB's result: the exact difference x[a] - x[b] through `ovf` (R112, R117). -/
def subResult (mode : OverflowMode) (x y : Byte) : Option Byte :=
  ovf mode ((x.toNat : Int) - (y.toNat : Int))

/-- ADD a, b (R111) with OVERFLOW_MODE as an argument. -/
def execAddIn (mode : OverflowMode) (a b : Byte) (s : State pcW) : StepResult pcW :=
  .next (binaryAlu (addResult mode) a b s)

/-- SUB a, b (R112) with OVERFLOW_MODE as an argument. -/
def execSubIn (mode : OverflowMode) (a b : Byte) (s : State pcW) : StepResult pcW :=
  .next (binaryAlu (subResult mode) a b s)

/-- ADD a, b (R111) on this hardware. -/
def execAdd (a b : Byte) (s : State pcW) : StepResult pcW :=
  execAddIn Config.core.overflowMode a b s

/-- SUB a, b (R112) on this hardware. -/
def execSub (a b : Byte) (s : State pcW) : StepResult pcW :=
  execSubIn Config.core.overflowMode a b s

/-- AND a, b (R113). -/
def execAnd (a b : Byte) (s : State pcW) : StepResult pcW :=
  .next (binaryAlu (fun x y => some (x &&& y)) a b s)

/-- OR a, b (R114). -/
def execOr (a b : Byte) (s : State pcW) : StepResult pcW :=
  .next (binaryAlu (fun x y => some (x ||| y)) a b s)

/-- XOR a, b (R115). -/
def execXor (a b : Byte) (s : State pcW) : StepResult pcW :=
  .next (binaryAlu (fun x y => some (x ^^^ y)) a b s)

/-- NOT a (R116): the truth value inverted, not the bits (C4). -/
def execNot (a : Byte) (s : State pcW) : StepResult pcW :=
  .next (withReg a s fun r => s.writeReg 0 (if s.reg r = 0 then 1 else 0))

end Sys2Proof.Machine
end

