-- ==== Sys2Proof/Machine/Move.lean ====
section
/-! DEFINITION. LD and LDA (42_move.md R130, R131). Neither touches memory (R79, R132). -/

namespace Sys2Proof.Machine

variable {pcW : Nat}

/-- LD a, v (R130): the literal into a register. -/
def execLd (a v : Byte) (s : State pcW) : StepResult pcW :=
  .next (withReg a s fun r => s.writeReg r v)

/-- LDA a, b (R131): one register into another. -/
def execLda (a b : Byte) (s : State pcW) : StepResult pcW :=
  .next (withRegs a b s fun rd rs => s.writeReg rd (s.reg rs))

end Sys2Proof.Machine
end

