-- ==== Sys2Proof/Machine/System.lean ====
section
/-! DEFINITION. OUT and HLT (43_system.md R140, R141). -/

namespace Sys2Proof.Machine

variable {pcW : Nat}

/-- OUT a (R140): emit the register. -/
def execOut (a : Byte) (s : State pcW) : StepResult pcW :=
  .next (withReg a s fun r => s.emit (s.reg r))

/-- HLT (R141, R95): end the run. -/
def execHlt (s : State pcW) : StepResult pcW := .next s.halt

end Sys2Proof.Machine
end

