-- ==== Sys2Proof/Machine/Dispatch.lean ====
section
/-! DEFINITION. `Execute(op)` (40_fetch_execute.md R94): one arm per instruction. -/

namespace Sys2Proof.Machine

/-- R94, at the configuration of this hardware. The state is the one after `pc <- pc + 1` (R93). -/
def exec (i : Instr) (s : State) : Host.Outcome State Fault Refusal :=
  match i with
  | .add a b => Sys2Proof.Machine.execAdd a b s
  | .sub a b => Sys2Proof.Machine.execSub a b s
  | .ld a v => Sys2Proof.Machine.execLd a v s
  | .lda a b => Sys2Proof.Machine.execLda a b s
  | .and a b => Sys2Proof.Machine.execAnd a b s
  | .or a b => Sys2Proof.Machine.execOr a b s
  | .xor a b => Sys2Proof.Machine.execXor a b s
  | .out a => Sys2Proof.Machine.execOut a s
  | .not a => Sys2Proof.Machine.execNot a s
  | .hlt => Sys2Proof.Machine.execHlt s

end Sys2Proof.Machine
end

