-- ==== Sys2Proof/Machine/Engine.lean ====
section
/-! DEFINITION. The step of 40_fetch_execute.md R90, with `Execute` as an argument, and `Execute` and the
step at any configuration of 00_scope.md R4. -/

namespace Sys2Proof.Machine

variable {pcW : Nat}

/-- `Step()` in RUNSTATE = RUN (R90): the loop test (R91), the fetch (R92), the increment (R93), the
execution (R94). HLT's change of RUNSTATE (R95) is in its meaning. -/
def runningStep (execute : Instr → State pcW → StepResult pcW) (s : State pcW) : StepResult pcW :=
  if s.len ≤ s.pc then .next s.halt
  else
    match memFetch s.pc s with
    | .ok i => execute i s.advancePc
    | .error r => .next (s.raise r.cause r.addr)

/-- `Step()` (R90): only RUN has a step; the other three states stop (log entry 3). -/
def engineStep (execute : Instr → State pcW → StepResult pcW) (s : State pcW) : StepResult pcW :=
  match s.runState with
  | .load => .refused .notStarted
  | .run => runningStep execute s
  | .halted => .refused .runEnded
  | .fault => .fault (.coreInFault s.faultCause s.faultAddr.toNat)

/-- `Execute(op)` (R94) with OVERFLOW_MODE as an argument: of the configuration only that is seen, by ADD
and SUB alone (R117), because execution works on the registers and never on memory (R94). -/
def execIn (mode : OverflowMode) (i : Instr) (s : State pcW) : StepResult pcW :=
  match i with
  | .add a b => execAddIn mode a b s
  | .sub a b => execSubIn mode a b s
  | .ld a v => execLd a v s
  | .lda a b => execLda a b s
  | .and a b => execAnd a b s
  | .or a b => execOr a b s
  | .xor a b => execXor a b s
  | .out a => execOut a s
  | .not a => execNot a s
  | .hlt => execHlt s

/-- `Step()` at a configuration. -/
def stepIn (cfg : Config) (s : State cfg.pcW) : StepResult cfg.pcW :=
  engineStep (execIn cfg.overflowMode) s

/-- The CORE at a configuration, as a machine to run; `Sys2Proof.core` is the one at `Config.core`. -/
def coreIn (cfg : Config) : Host.Core :=
  { State := State cfg.pcW, Fault := Fault, Refusal := Refusal, step := stepIn cfg,
    reset := State.resetAt cfg.pcW }

/-- The state whose next step runs the word `w` (log entry 4): the word at `pc`, LEN past it, RUN. -/
def placeWord (w : CellWord) (s : State pcW) : State pcW :=
  ((s.setCell s.pc w).setLen (if s.len ≤ s.pc then s.pc + 1 else s.len)).start

end Sys2Proof.Machine
end

