-- ==== Sys2Proof/Machine/Step.lean ====
section
/-! DEFINITION. The step of the CORE at the configuration of this hardware (40_fetch_execute.md R90). -/

namespace Sys2Proof.Machine

/-- `Step()` (R90). -/
def step (s : State) : Host.Outcome State Fault Refusal := engineStep exec s

/-- `s` with the instruction word `w` stored where the next step fetches, and the run started, so that
the next step fetches and runs it (log entry 4). An instruction is one cell (R61), so the word's 24 bits
are the whole of it. -/
def State.withFetchWord (s : State) (nbits w : Nat) : State :=
  placeWord (BitVec.ofNat 24 (w % 2 ^ nbits)) s

end Sys2Proof.Machine
end

