-- ==== Sys2Proof/Machine/HostOps.lean ====
section
/-! DEFINITION. The second agent: what the host can do to the CORE (44_host_ops.md R150 to R162). -/

namespace Sys2Proof.Machine

variable {pcW : Nat}

/-- The nine host operations (R150 to R159). -/
inductive HostOp (pcW : Nat) where
  /-- H_RESET (R151) -/
  | reset
  /-- H_LOAD(bytes) (R152) -/
  | load (bytes : List Byte)
  /-- H_PUSH(i) (R153) -/
  | push (i : Body)
  /-- H_POP (R154) -/
  | pop
  /-- H_READ(a) (R155) -/
  | read (a : BitVec pcW)
  /-- H_WRITE(a, v) (R156) -/
  | write (a : BitVec pcW) (v : Byte)
  /-- H_LEN (R157) -/
  | len
  /-- H_FETCH(a) (R158) -/
  | fetch (a : BitVec pcW)
  /-- H_START (R159) -/
  | start
  deriving DecidableEq, Repr

/-- What a host operation returns. -/
inductive HostValue (pcW : Nat) where
  /-- nothing is returned -/
  | unit
  | byte (v : Byte)
  | instr (i : Instr)
  | length (n : BitVec pcW)
  deriving DecidableEq, Repr

/-- How a host operation ends. -/
inductive HostReply (pcW : Nat) where
  /-- it completed, with a value -/
  | done (s : State pcW) (v : HostValue pcW)
  /-- it raised: the CORE is in FAULT and no value is returned (R161) -/
  | raised (s : State pcW)
  /-- the operation has no transition in this state (R150; log entry 4). Unsafe in the sense of U9: a
  claim about a run says nothing of a host that attempts it. -/
  | noMove
  deriving DecidableEq, Repr

/-- The state a host operation leaves, if it has a transition. -/
def HostReply.state? : HostReply pcW → Option (State pcW)
  | .done s _ => some s
  | .raised s => some s
  | .noMove => none

/-- `MemAppendData` for each byte in order (R152); a byte that does not fit raises, and the bytes before
it stay appended (R42). -/
def hostLoad (cfg : Config) : List Byte → State cfg.pcW → HostReply cfg.pcW
  | [], s => .done s .unit
  | v :: rest, s =>
    match memAppendData cfg v s with
    | .ok t => hostLoad cfg rest t
    | .error r => .raised (s.raise r.cause r.addr)

/-- H_PUSH (R153). -/
def hostPush (cfg : Config) (i : Body) (s : State cfg.pcW) : HostReply cfg.pcW :=
  match memAppendInstr cfg i s with
  | .ok t => .done t .unit
  | .error r => .raised (s.raise r.cause r.addr)

/-- H_POP (R154). -/
def hostPop (s : State pcW) : HostReply pcW :=
  match memPop s with
  | .ok (t, i) => .done t (.instr i)
  | .error r => .raised (s.raise r.cause r.addr)

/-- H_READ (R155). -/
def hostRead (a : BitVec pcW) (s : State pcW) : HostReply pcW :=
  match memRead a s with
  | .ok v => .done s (.byte v)
  | .error r => .raised (s.raise r.cause r.addr)

/-- H_WRITE (R156). -/
def hostWrite (a : BitVec pcW) (v : Byte) (s : State pcW) : HostReply pcW :=
  match memWrite a v s with
  | .ok t => .done t .unit
  | .error r => .raised (s.raise r.cause r.addr)

/-- H_FETCH (R158). -/
def hostFetch (a : BitVec pcW) (s : State pcW) : HostReply pcW :=
  match memFetch a s with
  | .ok i => .done s (.instr i)
  | .error r => .raised (s.raise r.cause r.addr)

/-- The operations that only LOAD accepts (R150). -/
def hostInLoad (cfg : Config) (op : HostOp cfg.pcW) (s : State cfg.pcW) : HostReply cfg.pcW :=
  match op with
  | .reset => .done (State.resetAt cfg.pcW) .unit
  | .load bytes => hostLoad cfg bytes s
  | .push i => hostPush cfg i s
  | .pop => hostPop s
  | .read a => hostRead a s
  | .write a v => hostWrite a v s
  | .len => .done s (.length (memLen s))
  | .fetch a => hostFetch a s
  | .start => .done s.start .unit

/-- A host operation at a configuration (R150): in LOAD all nine, elsewhere H_RESET alone. -/
def hostStepIn (cfg : Config) (op : HostOp cfg.pcW) (s : State cfg.pcW) : HostReply cfg.pcW :=
  match s.runState, op with
  | _, .reset => .done (State.resetAt cfg.pcW) .unit
  | .load, op => hostInLoad cfg op s
  | _, _ => .noMove

/-- A host operation on this hardware. -/
def hostStep (op : HostOp Config.core.pcW) (s : State) : HostReply Config.core.pcW :=
  hostStepIn Config.core op s

/-- What the host can observe in every state, changing nothing (R160). -/
structure Observation (pcW : Nat) where
  runState : BitVec 2
  faultCause : BitVec 3
  faultAddr : BitVec pcW
  len : BitVec pcW
  pc : BitVec pcW
  regs : Vector Byte 8
  /-- the cell words of MEM[0..LEN-1] -/
  cells : List CellWord
  outlog : List Byte
  deriving DecidableEq, Repr

/-- R160. -/
def observe (s : State pcW) : Observation pcW :=
  { runState := s.runState.code
    faultCause := s.faultCause.code
    faultAddr := s.faultAddr
    len := s.len
    pc := s.pc
    regs := s.regs
    cells := (List.range s.len.toNat).map (fun a => Memory.read a s.mem)
    outlog := s.outlog }

/-- The state after host operations that all complete, one after another (R213, steps 1 to 3). -/
def hostRun (cfg : Config) : List (HostOp cfg.pcW) → State cfg.pcW → Option (State cfg.pcW)
  | [], s => some s
  | op :: rest, s =>
    match hostStepIn cfg op s with
    | .done t _ => hostRun cfg rest t
    | .raised _ => none
    | .noMove => none

end Sys2Proof.Machine
end

