-- ==== Sys2Proof/Safety.lean ====
section
/-! DEFINITION. What a safe run is, in the terms the claims use: the invariant of the state, the states
the two agents can reach, and when a result does not fit a byte. -/

namespace Sys2Proof.Machine

variable {pcW : Nat}

/-- The relations between the fields of State that the spec states, with the canonical form of memory. -/
structure State.Inv (cfg : Config) (s : State cfg.pcW) : Prop where
  /-- the memory is in canonical form (log entry 1) -/
  memWf : Memory.wf s.mem
  /-- no cell at LEN or above is part of the state (R17) -/
  cellsBelowLen : ∀ p ∈ s.mem, p.1 < s.len.toNat
  /-- LEN ≤ MEM_CELLS (R17) -/
  lenLe : s.len.toNat ≤ cfg.memCells
  /-- pc ≤ LEN (R14) -/
  pcLe : s.pc.toNat ≤ s.len.toNat
  /-- FAULT_CAUSE and FAULT_ADDR are 0 outside FAULT (R19, R20) -/
  noFaultStatus : s.runState ≠ .fault → s.faultCause = .none ∧ s.faultAddr = 0
  /-- FAULT_CAUSE names the one fault taken (R19) -/
  faultStatus : s.runState = .fault → s.faultCause ≠ .none
  /-- nothing in LOAD can change pc, the registers or the trace (R159) -/
  loadFresh : s.runState = .load → s.pc = 0 ∧ s.regs = Vector.replicate 8 0 ∧ s.outlog = []

/-- The cell at an address is an instruction that runs past its own register check and does not halt. -/
def State.passedCell (s : State pcW) (a : Nat) : Prop :=
  ∃ i, decodeCell (Memory.read a s.mem) = .instr i ∧ i ≠ .hlt ∧ i.regsValid = true

/-- How far a run has come (R97, R101): every cell below pc has been passed, in address order; a halted
run passed every cell it had, or stopped at an HLT; a faulted one stopped at its last cell. -/
def State.Straight (s : State pcW) : Prop :=
  match s.runState with
  | .load => True
  | .run => ∀ a, a < s.pc.toNat → s.passedCell a
  | .halted =>
    (s.len ≤ s.pc ∧ ∀ a, a < s.pc.toNat → s.passedCell a) ∨
      ∃ n, s.pc.toNat = n + 1 ∧ Memory.read n s.mem = 0x890000#24 ∧ ∀ a, a < n → s.passedCell a
  | .fault => ∀ a, a + 1 < s.pc.toNat → s.passedCell a

/-- The states the two agents can bring the machine to (R5, R150, R213). -/
inductive Reachable (cfg : Config) : State cfg.pcW → Prop where
  | reset : Reachable cfg (State.resetAt cfg.pcW)
  | core {s t : State cfg.pcW} (h : Reachable cfg s) (e : stepIn cfg s = .next t) : Reachable cfg t
  | host {s t : State cfg.pcW} (h : Reachable cfg s) (op : HostOp cfg.pcW)
      (e : (hostStepIn cfg op s).state? = some t) : Reachable cfg t

/-- The run has ended (R215). -/
def State.ended (s : State pcW) : Prop := s.runState = .halted ∨ s.runState = .fault

/-- Two states that the rest of a run cannot tell apart (R98): everything a step reads is alike. The
trace, what `mem` lists at LEN and above, and the fault status outside FAULT may differ. -/
structure State.Agrees (s t : State pcW) : Prop where
  regs : s.regs = t.regs
  pc : s.pc = t.pc
  len : s.len = t.len
  runState : s.runState = t.runState
  cells : ∀ a, a < s.len.toNat → Memory.read a s.mem = Memory.read a t.mem
  fault : s.runState = .fault → s.faultCause = t.faultCause ∧ s.faultAddr = t.faultAddr

/-- ADD or SUB of two registers whose exact sum or difference leaves 0 to 255 (R117, R184). -/
def resultLeavesByte (i : Instr) (s : State pcW) : Prop :=
  ∃ (a b : Byte) (ra rb : RegIdx), a.toNat = ra.val ∧ b.toNat = rb.val ∧
    ((i = .add a b ∧ 255 < (s.reg ra).toNat + (s.reg rb).toNat) ∨
      (i = .sub a b ∧ (s.reg ra).toNat < (s.reg rb).toNat))

/-- What makes an instruction fault when it executes (R213, R181): a register index above 7, or, with
`OVERFLOW_MODE = fault`, a result outside 0 to 255. -/
def faultsAt (mode : OverflowMode) (i : Instr) (s : State pcW) : Prop :=
  i.regsValid = false ∨ (mode = .fault ∧ resultLeavesByte i s)

end Sys2Proof.Machine
end

