-- ==== Sys2Proof/Certificates/Slice0/Obligations.lean ====
section
/-! DEFINITION. The statements for the provers. Each docstring names the rule of spec/ it formalises; the
rules of the cell word, the opcode numbers, the fault codes and the host operations rest on the spec's
own decisions (92_eei_decisions.md), which the rules carry.

`exec` is given the state after `pc <- pc + 1` (R93), so in a statement about it `s.pc - 1` is the address
of the instruction. A record update `{ s with … }` names everything that changes: it is the frame too.

`State` is the state of this hardware; `State cfg.pcW` that of a CORE at `cfg`, whose PC_W follows its
MEM_CELLS (00_scope.md R4). `exec` is `execIn` at the default OVERFLOW_MODE and `step` is `stepIn` at
`Config.core`; a statement over the configurations says so where it is to reach this hardware. -/

open Sys2Proof Sys2Proof.Machine

/-! ## Parameters -/

/-- The two widths of 00_scope.md section 5 at every capacity: PC_W is the least width that holds
MEM_CELLS itself, ADDR_W the least that tells MEM_CELLS addresses apart; 12 and 11 by default. In a state
that meets the invariant every cell's address fits ADDR_W bits. -/
def Obligations.WidthsFollowTheCapacity : Prop :=
  (Config.core.memCells = 2048 ∧ Config.core.pcW = 12 ∧ Config.core.addrW = 11) ∧
  ∀ cfg : Config, cfg.WF →
    (∀ k : Nat, cfg.memCells < 2 ^ k ↔ cfg.pcW ≤ k) ∧
    (∀ k : Nat, cfg.memCells ≤ 2 ^ k ↔ cfg.addrW ≤ k) ∧
    ∀ s : State cfg.pcW, s.Inv cfg → ∀ a : Nat, a < s.len.toNat → a < 2 ^ cfg.addrW

/-! ## Encoding -/

/-- R67, `decode_cell` line by line, on a word given by its fields as a number (R61). -/
def Obligations.DecodeCellFollowsTheListing : Prop :=
  (∀ (w : CellWord) (high v : Nat), high < 2 ^ 15 → v < 256 → w.toNat = high * 2 ^ 8 + v →
    (high = 0 → decodeCell w = .data (BitVec.ofNat 8 v)) ∧
    (high ≠ 0 → ∃ why, decodeCell w = .invalid w why)) ∧
  (∀ (w : CellWord) (rsv opc a b : Nat), rsv < 8 → opc < 16 → a < 256 → b < 256 →
    w.toNat = 2 ^ 23 + rsv * 2 ^ 20 + opc * 2 ^ 16 + a * 2 ^ 8 + b →
      let ra := BitVec.ofNat 8 a
      let rb := BitVec.ofNat 8 b
      (rsv ≠ 0 → ∃ why, decodeCell w = .invalid w why) ∧
      (rsv = 0 →
        (opc = 0 → decodeCell w = .instr (.add ra rb)) ∧
        (opc = 1 → decodeCell w = .instr (.sub ra rb)) ∧
        (opc = 2 → decodeCell w = .instr (.ld ra rb)) ∧
        (opc = 3 → decodeCell w = .instr (.lda ra rb)) ∧
        (opc = 4 → decodeCell w = .instr (.and ra rb)) ∧
        (opc = 5 → decodeCell w = .instr (.or ra rb)) ∧
        (opc = 6 → decodeCell w = .instr (.xor ra rb)) ∧
        (opc = 7 → b = 0 → decodeCell w = .instr (.out ra)) ∧
        (opc = 7 → b ≠ 0 → ∃ why, decodeCell w = .invalid w why) ∧
        (opc = 8 → b = 0 → decodeCell w = .instr (.not ra)) ∧
        (opc = 8 → b ≠ 0 → ∃ why, decodeCell w = .invalid w why) ∧
        (opc = 9 → a = 0 → b = 0 → decodeCell w = .instr .hlt) ∧
        (opc = 9 → (a ≠ 0 ∨ b ≠ 0) → ∃ why, decodeCell w = .invalid w why) ∧
        (10 ≤ opc → ∃ why, decodeCell w = .invalid w why)))

/-- R64, the word pattern of every instruction as a number, and the unassigned opcode numbers. -/
def Obligations.EncodedWordsAreTheTables : Prop :=
  (∀ a b : Byte,
    (encode (.add a b)).toNat = 0x800000 + a.toNat * 256 + b.toNat ∧
    (encode (.sub a b)).toNat = 0x810000 + a.toNat * 256 + b.toNat ∧
    (encode (.ld a b)).toNat = 0x820000 + a.toNat * 256 + b.toNat ∧
    (encode (.lda a b)).toNat = 0x830000 + a.toNat * 256 + b.toNat ∧
    (encode (.and a b)).toNat = 0x840000 + a.toNat * 256 + b.toNat ∧
    (encode (.or a b)).toNat = 0x850000 + a.toNat * 256 + b.toNat ∧
    (encode (.xor a b)).toNat = 0x860000 + a.toNat * 256 + b.toNat ∧
    (encode (.out a)).toNat = 0x870000 + a.toNat * 256 ∧
    (encode (.not a)).toNat = 0x880000 + a.toNat * 256 ∧
    (encode .hlt).toNat = 0x890000) ∧
  ∀ w : CellWord, 0x8A0000 ≤ w.toNat → w.toNat ≤ 0x8FFFFF →
    ∃ why, decodeCell w = .invalid w why

/-- Decode and encode agree, at every operand of every instruction and at every data byte
(30_encoding.md section 5, which marks it as derived). -/
def Obligations.DecodeOfEncodeIsTheInstruction : Prop :=
  (∀ i : Instr, decodeCell (encode i) = .instr i) ∧
    ∀ v : Byte, decodeCell (wordOfData v) = .data v

/-- The other direction: a word that decodes to a cell is that cell's one word. -/
def Obligations.EncodeOfDecodeIsTheWord : Prop :=
  (∀ (w : CellWord) (i : Instr), decodeCell w = .instr i → encode i = w) ∧
    ∀ (w : CellWord) (v : Byte), decodeCell w = .data v → wordOfData v = w

/-- A word is Invalid exactly when it breaks the layout of the cell word: `wordWellFormed` is written
from R61, R64 and R70 on the word's number, apart from the decoder. -/
def Obligations.InvalidExactlyWhenMalformed : Prop :=
  ∀ w : CellWord, (∃ why, decodeCell w = .invalid w why) ↔ wordWellFormed w = false

/-- Words of 95_test_vectors.md 2.1 and 2.2, one of each format, a Data word, and four malformed ones,
which are Invalid. -/
def Obligations.WordsOfTheVectorsDecode : Prop :=
  decodeCell 0x800102#24 = .instr (.add 1 2) ∧ decodeCell 0x8207FF#24 = .instr (.ld 7 255) ∧
  decodeCell 0x830300#24 = .instr (.lda 3 0) ∧ decodeCell 0x870700#24 = .instr (.out 7) ∧
  decodeCell 0x890000#24 = .instr .hlt ∧ decodeCell 0x00002A#24 = .data 42 ∧
  (∃ why, decodeCell 0x8A0000#24 = .invalid 0x8A0000#24 why) ∧
  (∃ why, decodeCell 0x870301#24 = .invalid 0x870301#24 why) ∧
  (∃ why, decodeCell 0x900000#24 = .invalid 0x900000#24 why) ∧
  ∃ why, decodeCell 0x000100#24 = .invalid 0x000100#24 why

/-! ## ALU instructions -/

/-- R111, ADD in both overflow modes, with both of its faults. -/
def Obligations.AddWritesTheSumOrFaults : Prop :=
  ∀ (a b : Byte) (s : State),
    (encode (.add a b)).toNat = 0x800000 + a.toNat * 256 + b.toNat ∧
    (∀ ra rb : RegIdx, a.toNat = ra.val → b.toNat = rb.val →
      let sum := (s.reg ra).toNat + (s.reg rb).toNat
      (sum ≤ 255 → exec (.add a b) s = .next { s with regs := s.regs.set 0 (BitVec.ofNat 8 sum) }) ∧
      (255 < sum → exec (.add a b) s = .next { s with
        runState := .fault, faultCause := .arithmeticOverflow, faultAddr := s.pc - 1 }) ∧
      execIn .wrap (.add a b) s =
        .next { s with regs := s.regs.set 0 (BitVec.ofNat 8 (sum % 256)) }) ∧
    (7 < a.toNat ∨ 7 < b.toNat →
      exec (.add a b) s = .next { s with
        runState := .fault, faultCause := .registerIndexViolation, faultAddr := s.pc - 1 } ∧
      execIn .wrap (.add a b) s = exec (.add a b) s) ∧
    execIn .fault (.add a b) s = exec (.add a b) s

/-- R112, SUB in both overflow modes, with both of its faults. -/
def Obligations.SubWritesTheDifferenceOrFaults : Prop :=
  ∀ (a b : Byte) (s : State),
    (encode (.sub a b)).toNat = 0x810000 + a.toNat * 256 + b.toNat ∧
    (∀ ra rb : RegIdx, a.toNat = ra.val → b.toNat = rb.val →
      let x := (s.reg ra).toNat
      let y := (s.reg rb).toNat
      (y ≤ x → exec (.sub a b) s = .next { s with regs := s.regs.set 0 (BitVec.ofNat 8 (x - y)) }) ∧
      (x < y → exec (.sub a b) s = .next { s with
        runState := .fault, faultCause := .arithmeticOverflow, faultAddr := s.pc - 1 }) ∧
      execIn .wrap (.sub a b) s =
        .next { s with regs := s.regs.set 0 (BitVec.ofNat 8 ((x + 256 - y) % 256)) }) ∧
    (7 < a.toNat ∨ 7 < b.toNat →
      exec (.sub a b) s = .next { s with
        runState := .fault, faultCause := .registerIndexViolation, faultAddr := s.pc - 1 } ∧
      execIn .wrap (.sub a b) s = exec (.sub a b) s) ∧
    execIn .fault (.sub a b) s = exec (.sub a b) s

/-- R113, AND. -/
def Obligations.AndWritesTheBitwiseAnd : Prop :=
  ∀ (a b : Byte) (s : State),
    (encode (.and a b)).toNat = 0x840000 + a.toNat * 256 + b.toNat ∧
    (∀ ra rb : RegIdx, a.toNat = ra.val → b.toNat = rb.val →
      exec (.and a b) s = .next { s with regs := s.regs.set 0 (s.reg ra &&& s.reg rb) }) ∧
    (7 < a.toNat ∨ 7 < b.toNat → exec (.and a b) s = .next { s with
      runState := .fault, faultCause := .registerIndexViolation, faultAddr := s.pc - 1 })

/-- R114, OR. -/
def Obligations.OrWritesTheBitwiseOr : Prop :=
  ∀ (a b : Byte) (s : State),
    (encode (.or a b)).toNat = 0x850000 + a.toNat * 256 + b.toNat ∧
    (∀ ra rb : RegIdx, a.toNat = ra.val → b.toNat = rb.val →
      exec (.or a b) s = .next { s with regs := s.regs.set 0 (s.reg ra ||| s.reg rb) }) ∧
    (7 < a.toNat ∨ 7 < b.toNat → exec (.or a b) s = .next { s with
      runState := .fault, faultCause := .registerIndexViolation, faultAddr := s.pc - 1 })

/-- R115, XOR, with its corner cases: a register with itself gives 0, with 255 gives the complement. -/
def Obligations.XorWritesTheBitwiseXor : Prop :=
  ∀ (a b : Byte) (s : State),
    (encode (.xor a b)).toNat = 0x860000 + a.toNat * 256 + b.toNat ∧
    (∀ ra rb : RegIdx, a.toNat = ra.val → b.toNat = rb.val →
      exec (.xor a b) s = .next { s with regs := s.regs.set 0 (s.reg ra ^^^ s.reg rb) } ∧
      (a = b → exec (.xor a b) s = .next { s with regs := s.regs.set 0 0 }) ∧
      (s.reg rb = 255 → exec (.xor a b) s = .next { s with regs := s.regs.set 0 (~~~ s.reg ra) })) ∧
    (7 < a.toNat ∨ 7 < b.toNat → exec (.xor a b) s = .next { s with
      runState := .fault, faultCause := .registerIndexViolation, faultAddr := s.pc - 1 })

/-- R116, NOT: logical, one operand. -/
def Obligations.NotWritesTheTruthInversion : Prop :=
  ∀ (a : Byte) (s : State),
    (encode (.not a)).toNat = 0x880000 + a.toNat * 256 ∧
    (∀ ra : RegIdx, a.toNat = ra.val →
      (s.reg ra = 0 → exec (.not a) s = .next { s with regs := s.regs.set 0 1 }) ∧
      (s.reg ra ≠ 0 → exec (.not a) s = .next { s with regs := s.regs.set 0 0 })) ∧
    (7 < a.toNat → exec (.not a) s = .next { s with
      runState := .fault, faultCause := .registerIndexViolation, faultAddr := s.pc - 1 })

/-- R110 and the frame of the six ALU instructions, at every width and in both modes: R0 is the only register that can change, and besides
it only the fault status, and that only where R0 is unchanged too. -/
def Obligations.AluFrame : Prop :=
  (∀ (i : Instr) (s : State), exec i s = execIn .fault i s) ∧
  ∀ (pcW : Nat) (mode : OverflowMode) (a b : Byte) (i : Instr) (s t : State pcW),
    (i = .add a b ∨ i = .sub a b ∨ i = .and a b ∨ i = .or a b ∨ i = .xor a b ∨ i = .not a) →
    execIn mode i s = .next t →
    (∀ r : RegIdx, r ≠ 0 → t.reg r = s.reg r) ∧ t.pc = s.pc ∧ t.len = s.len ∧ t.outlog = s.outlog ∧
    (∀ addr : Nat, Memory.read addr t.mem = Memory.read addr s.mem) ∧
    ((t.runState = s.runState ∧ t.faultCause = s.faultCause ∧ t.faultAddr = s.faultAddr) ∨
      (t.reg 0 = s.reg 0 ∧ t.runState = .fault ∧ t.faultAddr = s.pc - 1 ∧
        (t.faultCause = .registerIndexViolation ∨ t.faultCause = .arithmeticOverflow)))

/-- With `wrap`, no instruction raises ArithmeticOverflow; with `fault`, ADD and SUB alone do, and only
where the exact result leaves 0 to 255 (R117, R184). -/
def Obligations.OverflowFaultsOnlyOutsideTheByte : Prop :=
  ∀ (pcW : Nat) (mode : OverflowMode) (i : Instr) (s t : State pcW), execIn mode i s = .next t →
    t.faultCause = .arithmeticOverflow → s.faultCause ≠ .arithmeticOverflow →
    mode = .fault ∧ t.runState = .fault ∧
      ∃ (a b : Byte) (ra rb : RegIdx), a.toNat = ra.val ∧ b.toNat = rb.val ∧
        ((i = .add a b ∧ 255 < (s.reg ra).toNat + (s.reg rb).toNat) ∨
          (i = .sub a b ∧ (s.reg ra).toNat < (s.reg rb).toNat))

/-! ## Load and move -/

/-- R130, LD: the literal, any of 0 to 255, into the register; no memory is read; an OUT of the register
right after it emits the literal exactly. -/
def Obligations.LdWritesTheLiteral : Prop :=
  ∀ (a v : Byte) (s : State),
    (encode (.ld a v)).toNat = 0x820000 + a.toNat * 256 + v.toNat ∧
    (∀ ra : RegIdx, a.toNat = ra.val →
      exec (.ld a v) s = .next { s with regs := s.regs.set ra.val v ra.isLt } ∧
      ∃ t, exec (.ld a v) s = .next t ∧ exec (.out a) t = .next { t with outlog := s.outlog ++ [v] }) ∧
    (7 < a.toNat → exec (.ld a v) s = .next { s with
      runState := .fault, faultCause := .registerIndexViolation, faultAddr := s.pc - 1 })

/-- R131, LDA: one register into another, the source as it was, `LDA a a` changing nothing. -/
def Obligations.LdaCopiesTheRegister : Prop :=
  ∀ (a b : Byte) (s : State),
    (encode (.lda a b)).toNat = 0x830000 + a.toNat * 256 + b.toNat ∧
    (∀ ra rb : RegIdx, a.toNat = ra.val → b.toNat = rb.val →
      exec (.lda a b) s = .next { s with regs := s.regs.set ra.val (s.reg rb) ra.isLt } ∧
      (a = b → exec (.lda a b) s = .next s) ∧
      ∃ t, exec (.lda a b) s = .next t ∧ t.reg rb = s.reg rb ∧ t.reg ra = s.reg rb) ∧
    (7 < a.toNat ∨ 7 < b.toNat → exec (.lda a b) s = .next { s with
      runState := .fault, faultCause := .registerIndexViolation, faultAddr := s.pc - 1 })

/-- The frame of LD and LDA: no register but the destination changes, and no memory. -/
def Obligations.MoveFrame : Prop :=
  ∀ (a b : Byte) (i : Instr) (s t : State), (i = .ld a b ∨ i = .lda a b) → exec i s = .next t →
    (∀ r : RegIdx, a.toNat ≠ r.val → t.reg r = s.reg r) ∧ t.pc = s.pc ∧ t.len = s.len ∧
    t.outlog = s.outlog ∧ (∀ addr : Nat, Memory.read addr t.mem = Memory.read addr s.mem) ∧
    ((t.runState = s.runState ∧ t.faultCause = s.faultCause ∧ t.faultAddr = s.faultAddr) ∨
      (t.regs = s.regs ∧ t.runState = .fault ∧ t.faultAddr = s.pc - 1 ∧
        t.faultCause = .registerIndexViolation))

/-! ## Output and halt -/

/-- R140, OUT: the register's value on the output port, once; the register keeps it. -/
def Obligations.OutEmitsTheRegister : Prop :=
  ∀ (a : Byte) (s : State),
    (encode (.out a)).toNat = 0x870000 + a.toNat * 256 ∧
    (∀ ra : RegIdx, a.toNat = ra.val →
      exec (.out a) s = .next { s with outlog := s.outlog ++ [s.reg ra] }) ∧
    (7 < a.toNat → exec (.out a) s = .next { s with
      runState := .fault, faultCause := .registerIndexViolation, faultAddr := s.pc - 1 })

/-- R141, HLT: from a step at address n it ends the run with pc = n + 1 and changes nothing else. -/
def Obligations.HltEndsTheRun : Prop :=
  (encode .hlt).toNat = 0x890000 ∧
  (∀ s : State, exec .hlt s = .next { s with runState := .halted }) ∧
  ∀ s : State, s.runState = .run → s.pc < s.len → s.cell s.pc = 0x890000#24 →
    step s = .next { s with pc := s.pc + 1, runState := .halted }

/-- The frame of OUT and HLT: every register and all memory as before; OUT adds one value or faults,
HLT emits nothing. -/
def Obligations.OutputAndHaltFrame : Prop :=
  ∀ (a : Byte) (i : Instr) (s t : State), (i = .out a ∨ i = .hlt) → exec i s = .next t →
    (∀ r : RegIdx, t.reg r = s.reg r) ∧ t.pc = s.pc ∧ t.len = s.len ∧
    (∀ addr : Nat, Memory.read addr t.mem = Memory.read addr s.mem) ∧
    (i = .hlt → t.outlog = s.outlog ∧ t.faultCause = s.faultCause ∧ t.faultAddr = s.faultAddr) ∧
    (i = .out a → (∃ v, t.outlog = s.outlog ++ [v] ∧ t.runState = s.runState ∧
        t.faultCause = s.faultCause ∧ t.faultAddr = s.faultAddr) ∨
      (t.outlog = s.outlog ∧ t.runState = .fault ∧ t.faultAddr = s.pc - 1 ∧
        t.faultCause = .registerIndexViolation))

/-- 42_move.md R130's round trip as two steps of a run: LD r v, then OUT r, emit v exactly. -/
def Obligations.LoadThenOutEmitsTheLiteral : Prop :=
  ∀ (s : State) (r v : Byte), s.runState = .run → r.toNat < 8 →
    s.pc.toNat + 1 < s.len.toNat → s.cell s.pc = encode (.ld r v) →
    s.cell (s.pc + 1) = encode (.out r) →
    ∃ t, Sys2Proof.core.run 2 s = .next t ∧ t.outlog = s.outlog ++ [v] ∧
      t.runState = .run ∧ t.pc.toNat = s.pc.toNat + 2

/-- No instruction, in either overflow mode and at any width, touches memory, LEN or pc (R94, R132). -/
def Obligations.NoInstructionTouchesMemory : Prop :=
  (∀ (i : Instr) (s : State), exec i s = execIn .fault i s) ∧
  ∀ (pcW : Nat) (mode : OverflowMode) (i : Instr) (s t : State pcW), execIn mode i s = .next t →
    t.len = s.len ∧ t.pc = s.pc ∧ ∀ addr : Nat, Memory.read addr t.mem = Memory.read addr s.mem

/-- From RUN every instruction answers a next state, and which RUNSTATE that state has is said for every
case: HALTED exactly for HLT, FAULT exactly when `faultsAt` says so (an index above 7, or, in mode
`fault`, an ADD or SUB whose exact result leaves 0 to 255), RUN otherwise, never LOAD; with the cause of
each fault (R95, R99, R117, R190). -/
def Obligations.InstructionStaysInRunUnlessHltOrFault : Prop :=
  (∀ (i : Instr) (s : State), exec i s = execIn .fault i s) ∧
  ∀ (pcW : Nat) (mode : OverflowMode) (i : Instr) (s : State pcW), s.runState = .run →
    ∃ t, execIn mode i s = .next t ∧
      (t.runState = .halted ↔ i = .hlt) ∧
      (t.runState = .fault ↔ faultsAt mode i s) ∧
      (t.runState = .run ↔ i ≠ .hlt ∧ ¬ faultsAt mode i s) ∧
      (i.regsValid = false → t.faultCause = .registerIndexViolation) ∧
      (mode = .fault → resultLeavesByte i s → t.faultCause = .arithmeticOverflow)

/-- R94, "against the register bank" only: what an instruction does to the registers, RUNSTATE and the
trace, and which fault it records, depend on the registers alone, at any two widths PC_W. So the result
statements above, made of this hardware, hold of a CORE of any capacity. -/
def Obligations.ExecutionSeesTheRegistersAlone : Prop :=
  ∀ (w1 w2 : Nat) (mode : OverflowMode) (i : Instr) (s1 : State w1) (s2 : State w2),
    s1.regs = s2.regs → s1.runState = .run → s2.runState = .run →
    ∃ (t1 : State w1) (t2 : State w2) (out : List Byte),
      execIn mode i s1 = .next t1 ∧ execIn mode i s2 = .next t2 ∧
      t1.regs = t2.regs ∧ t1.runState = t2.runState ∧
      t1.outlog = s1.outlog ++ out ∧ t2.outlog = s2.outlog ++ out ∧
      (t1.runState = .fault → t1.faultCause = t2.faultCause ∧
        t1.faultAddr = s1.pc - 1 ∧ t2.faultAddr = s2.pc - 1)

/-! ## The step -/

/-- A step runs the decoded instruction: the word at pc decodes to i, so the step is `exec i` at the
state with pc incremented (R92 to R94). -/
def Obligations.StepRunsTheDecodedInstruction : Prop :=
  ∀ (s : State) (i : Instr), s.runState = .run → s.pc < s.len → decodeCell (s.cell s.pc) = .instr i →
    step s = exec i { s with pc := s.pc + 1 }

/-- R90: the CORE steps in RUN, and in RUN it always does; in LOAD, HALTED and FAULT it has no step. -/
def Obligations.StepExistsExactlyInRun : Prop :=
  ∀ s : State, (∃ t, step s = .next t) ↔ s.runState = .run

/-- R91, the loop test: at the end of memory the CORE halts without fetching. -/
def Obligations.EndOfMemoryHalts : Prop :=
  (∀ s : State, s.runState = .run → s.len ≤ s.pc → step s = .next { s with runState := .halted }) ∧
    step (State.reset.start) = .next { State.reset with runState := .halted }

/-- R92: what the fetch of a step finds. A Data cell and a malformed Instruction word fault with pc
unchanged and FAULT_ADDR = pc; any other cell is an instruction, fetched and executed. -/
def Obligations.FetchFaultsLeavePcAtTheCell : Prop :=
  ∀ s : State, s.runState = .run → s.pc < s.len →
    (tagOf (s.cell s.pc) = false → step s = .next { s with
      runState := .fault, faultCause := .memoryTypeViolation, faultAddr := s.pc }) ∧
    (tagOf (s.cell s.pc) = true → wordWellFormed (s.cell s.pc) = false → step s = .next { s with
      runState := .fault, faultCause := .illegalEncoding, faultAddr := s.pc }) ∧
    (tagOf (s.cell s.pc) = true → wordWellFormed (s.cell s.pc) = true →
      ∃ i, decodeCell (s.cell s.pc) = .instr i ∧ step s = exec i { s with pc := s.pc + 1 })

/-- R13: a step leaves pc or adds 1, and adds 1 exactly when it fetched an instruction. -/
def Obligations.PcOnlyAdvancesByOne : Prop :=
  (∀ s : State, step s = stepIn Config.core s) ∧
  ∀ (cfg : Config) (s t : State cfg.pcW), stepIn cfg s = .next t →
    (t.pc = s.pc ∧ ¬ ∃ i, s.pc < s.len ∧ decodeCell (s.cell s.pc) = .instr i) ∨
      (t.pc.toNat = s.pc.toNat + 1 ∧ ∃ i, s.pc < s.len ∧ decodeCell (s.cell s.pc) = .instr i)

/-- R96 and R180: a faulting step has written no register, no memory and emitted nothing; FAULT_ADDR is
the address of the cell, and the cause is one of the four a run can raise (R181, R185). -/
def Obligations.FaultingStepHasNoPartialEffect : Prop :=
  (∀ s : State, step s = stepIn Config.core s) ∧
  ∀ (cfg : Config) (s t : State cfg.pcW), stepIn cfg s = .next t →
    t.runState = .fault →
    t.regs = s.regs ∧ t.mem = s.mem ∧ t.len = s.len ∧ t.outlog = s.outlog ∧ t.faultAddr = s.pc ∧
    ((t.pc = s.pc ∧ (t.faultCause = .memoryTypeViolation ∨ t.faultCause = .illegalEncoding)) ∨
      (t.pc = s.pc + 1 ∧
        (t.faultCause = .registerIndexViolation ∨ t.faultCause = .arithmeticOverflow)))

/-- R201 and R21: a step never shortens or rewrites the trace; it adds at most one value, and only by an
OUT that completes in a step that does not fault. -/
def Obligations.TraceOnlyGrowsByOut : Prop :=
  (∀ s : State, step s = stepIn Config.core s) ∧
  ∀ (cfg : Config) (s t : State cfg.pcW), stepIn cfg s = .next t →
    t.outlog = s.outlog ∨
      (t.runState = .run ∧ ∃ (a : Byte) (ra : RegIdx), a.toNat = ra.val ∧
        decodeCell (s.cell s.pc) = .instr (.out a) ∧ t.outlog = s.outlog ++ [s.reg ra])

/-! ## Faults -/

/-- R192: from FAULT no step and no host operation but H_RESET leads on. -/
def Obligations.FaultIsLeftOnlyByReset : Prop :=
  (∀ s : State, step s = stepIn Config.core s) ∧
  ∀ (cfg : Config) (s : State cfg.pcW), s.runState = .fault →
    (∀ t, stepIn cfg s ≠ .next t) ∧
    (∀ op : HostOp cfg.pcW, op ≠ .reset → hostStepIn cfg op s = .noMove) ∧
    hostStepIn cfg .reset s = .done (State.resetAt cfg.pcW) .unit

/-! ## Reset and the host operations -/

/-- R151 with the values of R23 and R210: H_RESET is accepted in every state and leaves them all. -/
def Obligations.ResetGivesTheResetValues : Prop :=
  State.reset = State.resetAt Config.core.pcW ∧
  ∀ (cfg : Config) (s : State cfg.pcW), ∃ t, hostStepIn cfg .reset s = .done t .unit ∧
    t = State.resetAt cfg.pcW ∧ (∀ r : RegIdx, t.reg r = 0) ∧ t.pc = 0 ∧ t.len = 0 ∧ t.runState = .load ∧
    t.faultCause = .none ∧ t.faultAddr = 0 ∧ t.outlog = []

/-- R150: outside LOAD every operation but H_RESET has no transition; in LOAD every one has. -/
def Obligations.HostActsOnlyInLoad : Prop :=
  ∀ (cfg : Config) (s : State cfg.pcW) (op : HostOp cfg.pcW),
    hostStepIn cfg op s = .noMove ↔ op ≠ .reset ∧ s.runState ≠ .load

/-- R153 and R37: H_PUSH appends the Instruction cell of the body, unchecked, at address LEN; on a full
memory it raises and appends nothing. -/
def Obligations.PushAppendsTheInstructionCell : Prop :=
  ∀ (cfg : Config) (s : State cfg.pcW) (i : Body), s.runState = .load →
    (s.len.toNat < cfg.memCells → ∃ t, hostStepIn cfg (.push i) s = .done t .unit ∧
      t.len.toNat = s.len.toNat + 1 ∧ (t.cell s.len).toNat = 2 ^ 23 + i.toNat ∧
      (∀ a : Nat, a ≠ s.len.toNat → Memory.read a t.mem = Memory.read a s.mem) ∧
      t = { s with mem := t.mem, len := t.len }) ∧
    (s.len.toNat = cfg.memCells → hostStepIn cfg (.push i) s = .raised { s with
      runState := .fault, faultCause := .memoryCapacityExceeded, faultAddr := s.len })

/-- R152 with R36 and R42: H_LOAD appends the bytes in order as Data cells; if they do not all fit it
raises with the memory full, the bytes that fitted in place. -/
def Obligations.LoadAppendsTheBytesInOrder : Prop :=
  ∀ (cfg : Config) (s : State cfg.pcW) (bytes : List Byte), s.runState = .load →
    s.len.toNat ≤ cfg.memCells →
    ∃ t, (if s.len.toNat + bytes.length ≤ cfg.memCells
        then hostStepIn cfg (.load bytes) s = .done t .unit ∧
          t.len.toNat = s.len.toNat + bytes.length ∧ t = { s with mem := t.mem, len := t.len }
        else hostStepIn cfg (.load bytes) s = .raised t ∧ t.len.toNat = cfg.memCells ∧
          t = { s with
            mem := t.mem, len := t.len, runState := .fault,
            faultCause := .memoryCapacityExceeded, faultAddr := t.len }) ∧
      (∀ k : Nat, s.len.toNat + k < t.len.toNat →
        decodeCell (Memory.read (s.len.toNat + k) t.mem) = .data (bytes.getD k 0)) ∧
      ∀ a : Nat, (a < s.len.toNat ∨ t.len.toNat ≤ a) → Memory.read a t.mem = Memory.read a s.mem

/-- R154 and R39: what H_POP returns and removes, and its three faults, in their order. -/
def Obligations.PopRemovesTheLastInstruction : Prop :=
  ∀ (cfg : Config) (s : State cfg.pcW), s.runState = .load →
    (s.len = 0 → hostStepIn cfg .pop s = .raised { s with
      runState := .fault, faultCause := .memoryRangeViolation, faultAddr := 0 }) ∧
    (s.len ≠ 0 → tagOf (s.cell (s.len - 1)) = false → hostStepIn cfg .pop s = .raised { s with
      runState := .fault, faultCause := .memoryTypeViolation, faultAddr := s.len - 1 }) ∧
    (s.len ≠ 0 → tagOf (s.cell (s.len - 1)) = true → wordWellFormed (s.cell (s.len - 1)) = false →
      hostStepIn cfg .pop s = .raised { s with
        runState := .fault, faultCause := .illegalEncoding, faultAddr := s.len - 1 }) ∧
    ∀ i : Instr, s.len ≠ 0 → decodeCell (s.cell (s.len - 1)) = .instr i →
      ∃ t, hostStepIn cfg .pop s = .done t (.instr i) ∧ t.len.toNat + 1 = s.len.toNat ∧
        (∀ a : Nat, a < t.len.toNat → Memory.read a t.mem = Memory.read a s.mem) ∧
        t = { s with mem := t.mem, len := t.len }

/-- R154's corner case: H_PUSH of an instruction, then H_POP, returns it and restores the whole state.
The premise is the invariant of State, kept by both agents (`StepKeepsTheInvariant`,
`HostOperationsKeepTheInvariant`). -/
def Obligations.PushThenPopRestoresTheState : Prop :=
  ∀ (cfg : Config) (s t : State cfg.pcW) (i : Instr), s.Inv cfg → s.runState = .load →
    hostStepIn cfg (.push i.body) s = .done t .unit →
    hostStepIn cfg .pop t = .done s (.instr i)

/-- R155 and R40: H_READ returns the byte of a Data cell and changes nothing, or faults. -/
def Obligations.ReadReturnsTheDataByte : Prop :=
  ∀ (cfg : Config) (s : State cfg.pcW) (a : BitVec cfg.pcW), s.runState = .load →
    (s.len ≤ a → hostStepIn cfg (.read a) s = .raised { s with
      runState := .fault, faultCause := .memoryRangeViolation, faultAddr := a }) ∧
    (a < s.len → tagOf (s.cell a) = true → hostStepIn cfg (.read a) s = .raised { s with
      runState := .fault, faultCause := .memoryTypeViolation, faultAddr := a }) ∧
    (a < s.len → tagOf (s.cell a) = false → wordWellFormed (s.cell a) = false →
      hostStepIn cfg (.read a) s = .raised { s with
        runState := .fault, faultCause := .illegalEncoding, faultAddr := a }) ∧
    ∀ v : Byte, a < s.len → decodeCell (s.cell a) = .data v →
      hostStepIn cfg (.read a) s = .done s (.byte v)

/-- R156 and R41: H_WRITE makes the cell a Data cell whatever it held, changes no other cell and never
extends the memory; a later fetch of the cell faults; at LEN and above the write faults. -/
def Obligations.WriteRetagsTheCell : Prop :=
  ∀ (cfg : Config) (s : State cfg.pcW) (a : BitVec cfg.pcW) (v : Byte), s.runState = .load →
    (s.len ≤ a → hostStepIn cfg (.write a v) s = .raised { s with
      runState := .fault, faultCause := .memoryRangeViolation, faultAddr := a }) ∧
    (a < s.len → ∃ t, hostStepIn cfg (.write a v) s = .done t .unit ∧
      decodeCell (t.cell a) = .data v ∧
      (∀ k : Nat, k ≠ a.toNat → Memory.read k t.mem = Memory.read k s.mem) ∧
      t = { s with mem := t.mem } ∧
      hostStepIn cfg (.read a) t = .done t (.byte v) ∧
      hostStepIn cfg (.fetch a) t = .raised { t with
        runState := .fault, faultCause := .memoryTypeViolation, faultAddr := a })

/-- R157, R158 and R38: H_LEN and H_FETCH answer and change nothing; H_FETCH's faults in their order. -/
def Obligations.LenAndFetchChangeNothing : Prop :=
  ∀ (cfg : Config) (s : State cfg.pcW) (a : BitVec cfg.pcW), s.runState = .load →
    hostStepIn cfg .len s = .done s (.length s.len) ∧
    (s.len ≤ a → hostStepIn cfg (.fetch a) s = .raised { s with
      runState := .fault, faultCause := .memoryRangeViolation, faultAddr := a }) ∧
    (a < s.len → tagOf (s.cell a) = false → hostStepIn cfg (.fetch a) s = .raised { s with
      runState := .fault, faultCause := .memoryTypeViolation, faultAddr := a }) ∧
    (a < s.len → tagOf (s.cell a) = true → wordWellFormed (s.cell a) = false →
      hostStepIn cfg (.fetch a) s = .raised { s with
        runState := .fault, faultCause := .illegalEncoding, faultAddr := a }) ∧
    ∀ i : Instr, a < s.len → decodeCell (s.cell a) = .instr i →
      hostStepIn cfg (.fetch a) s = .done s (.instr i)

/-- R159: H_START changes RUNSTATE alone, pc and the registers being at their reset values in LOAD, and
cannot be given again. The premise is the invariant of State. -/
def Obligations.StartBeginsTheRun : Prop :=
  ∀ (cfg : Config) (s : State cfg.pcW), s.Inv cfg → s.runState = .load →
    ∃ t, hostStepIn cfg .start s = .done t .unit ∧ t = { s with runState := .run } ∧ t.pc = 0 ∧
      (∀ r : RegIdx, t.reg r = 0) ∧ hostStepIn cfg .start t = .noMove

/-- R12: no host operation but H_RESET writes a register; nor pc, nor the trace (R13, R21). -/
def Obligations.HostWritesNoRegister : Prop :=
  ∀ (cfg : Config) (op : HostOp cfg.pcW) (s t : State cfg.pcW), op ≠ .reset →
    (hostStepIn cfg op s).state? = some t →
    t.regs = s.regs ∧ t.pc = s.pc ∧ t.outlog = s.outlog

/-- R161 and R191: a host operation that raises enters FAULT with a cause of the memory primitives; of
the memory only H_LOAD can have changed anything before it raised. -/
def Obligations.RaisingHostOperationEntersFault : Prop :=
  ∀ (cfg : Config) (op : HostOp cfg.pcW) (s t : State cfg.pcW), hostStepIn cfg op s = .raised t →
    t.runState = .fault ∧
    (t.faultCause = .memoryTypeViolation ∨ t.faultCause = .memoryRangeViolation ∨
      t.faultCause = .illegalEncoding ∨ t.faultCause = .memoryCapacityExceeded) ∧
    ((∀ bytes, op ≠ .load bytes) → t.mem = s.mem ∧ t.len = s.len)

/-- R46 and R213: pushing instructions after reset puts the k-th at address k, and H_START then runs at
address 0. -/
def Obligations.PushedProgramOccupiesItsLines : Prop :=
  ∀ (cfg : Config) (prog : List Instr), prog.length ≤ cfg.memCells →
    ∃ t, hostRun cfg (prog.map (fun i => .push i.body) ++ [.start]) (State.resetAt cfg.pcW) = some t ∧
      t.runState = .run ∧ t.pc = 0 ∧ t.len.toNat = prog.length ∧
      ∀ (k : Nat) (i : Instr), prog[k]? = some i → decodeCell (Memory.read k t.mem) = .instr i

/-! ## Memory -/

/-- The canonical form is one form: two memories in it that read alike at every address are equal
(notes/assumptions/1.md, the model's choice). -/
def Obligations.CanonicalMemoryIsUnique : Prop :=
  ∀ m n : Memory, Memory.wf m → Memory.wf n → (∀ a, Memory.read a m = Memory.read a n) → m = n

/-! ## Invariants and whole runs -/

/-- The invariant holds at reset. -/
def Obligations.ResetMeetsTheInvariant : Prop :=
  State.reset.Inv Config.core ∧ ∀ cfg : Config, (State.resetAt cfg.pcW).Inv cfg

/-- Every step keeps the invariant: `pc ≤ LEN ≤ MEM_CELLS` (10_state.md section 2), the cells below LEN,
the fault status and the canonical form of memory. -/
def Obligations.StepKeepsTheInvariant : Prop :=
  (∀ s t : State, s.Inv Config.core → step s = .next t → t.Inv Config.core) ∧
    ∀ (cfg : Config) (s t : State cfg.pcW), s.Inv cfg → stepIn cfg s = .next t → t.Inv cfg

/-- Every host operation keeps the invariant, the ones that raise too. -/
def Obligations.HostOperationsKeepTheInvariant : Prop :=
  ∀ (cfg : Config) (op : HostOp cfg.pcW) (s t : State cfg.pcW), s.Inv cfg →
    (hostStepIn cfg op s).state? = some t → t.Inv cfg

/-- Every step keeps the run straight (40_fetch_execute.md sections 2 and 3): the cells below pc are
instructions that were passed one by one, none of them HLT, none with a register index above 7. -/
def Obligations.StepKeepsTheRunStraight : Prop :=
  (∀ s t : State, s.Straight → step s = .next t → t.Straight) ∧
    ∀ (cfg : Config) (s t : State cfg.pcW), s.Straight → stepIn cfg s = .next t → t.Straight

/-- In every state the two agents can reach, the invariant holds and the run is straight: at every
moment `pc ≤ LEN ≤ MEM_CELLS`. -/
def Obligations.ReachableStatesMeetTheInvariants : Prop :=
  ∀ (cfg : Config) (s : State cfg.pcW), Reachable cfg s → s.Inv cfg ∧ s.Straight

/-- 70_reset_and_hazards.md section 3: a run halted by HLT exactly when `MEM[pc-1]` is the HLT word, for
every halting step of every reachable state. -/
def Obligations.HaltByHltIsReadFromTheLastCell : Prop :=
  ∀ (cfg : Config) (s t : State cfg.pcW), Reachable cfg s → stepIn cfg s = .next t →
    t.runState = .halted →
    ((s.pc < s.len ∧ decodeCell (s.cell s.pc) = .instr .hlt) ↔
      ∃ n, t.pc.toNat = n + 1 ∧ Memory.read n t.mem = 0x890000#24)

/-- From any running state the run ends, in HALTED or FAULT, within LEN - pc + 1 steps
(40_fetch_execute.md section 2). -/
def Obligations.EveryRunEnds : Prop :=
  (∀ s : State, s.runState = .run →
    ∃ (k : Nat) (t : State), k ≤ s.len.toNat - s.pc.toNat + 1 ∧
      Sys2Proof.core.run k s = .next t ∧ t.ended) ∧
  ∀ (cfg : Config) (s : State cfg.pcW), s.runState = .run →
    ∃ (k : Nat) (t : State cfg.pcW), k ≤ s.len.toNat - s.pc.toNat + 1 ∧
      (coreIn cfg).run k s = .next t ∧ t.ended

/-- 70_reset_and_hazards.md section 2, what a run must satisfy to end in HALTED and not in FAULT, both
ways: every cell up to the first HLT, or up to the end of memory, is a well-formed instruction whose
register indices are at most 7, and, with `OVERFLOW_MODE = fault`, no executed ADD or SUB leaves 0 to 255
(executed: met at `pc` by some state of the run). -/
def Obligations.FaultFreeProgramsHalt : Prop :=
  ∀ (cfg : Config) (s : State cfg.pcW), s.runState = .run →
    ((∃ (k : Nat) (t : State cfg.pcW), k ≤ s.len.toNat - s.pc.toNat + 1 ∧
        (coreIn cfg).run k s = .next t ∧ t.runState = .halted) ↔
      (∀ a : BitVec cfg.pcW, s.pc ≤ a → a < s.len →
        (∀ b : BitVec cfg.pcW, s.pc ≤ b → b < a → decodeCell (s.cell b) ≠ .instr .hlt) →
        ∃ i, decodeCell (s.cell a) = .instr i ∧ i.regsValid = true) ∧
      (cfg.overflowMode = .fault → ∀ (k : Nat) (u : State cfg.pcW) (i : Instr),
        (coreIn cfg).run k s = .next u → u.runState = .run → u.pc < u.len →
        decodeCell (u.cell u.pc) = .instr i → ¬ resultLeavesByte i u))

/-- R98, one step: two running states that agree on the registers, pc, LEN, RUNSTATE and the cells below
LEN step to states that agree, and append the same values to the trace, whatever their traces, the cells
listed at LEN and above, and their fault status were. -/
def Obligations.AgreeingStatesStepAlike : Prop :=
  (∀ s : State, step s = stepIn Config.core s) ∧
  ∀ (cfg : Config) (s1 s2 : State cfg.pcW), s1.Agrees s2 → s1.runState = .run →
    ∃ (t1 t2 : State cfg.pcW) (out : List Byte),
      stepIn cfg s1 = .next t1 ∧ stepIn cfg s2 = .next t2 ∧ t1.Agrees t2 ∧
      t1.outlog = s1.outlog ++ out ∧ t2.outlog = s2.outlog ++ out

/-- R98, the whole run: the final state and the values emitted are a function of the memory image at
H_START. Two states in LOAD with the same LEN and the same cells below it start in states that agree
(`State.Agrees`), with empty traces; and running states that agree keep agreeing over any number of steps,
in which both emit the same values, and stop after the same number of steps. -/
def Obligations.RunDependsOnTheImageAlone : Prop :=
  (∀ (cfg : Config) (s1 s2 : State cfg.pcW), s1.Inv cfg → s2.Inv cfg →
    s1.runState = .load → s2.runState = .load → s1.len = s2.len →
    (∀ a : Nat, a < s1.len.toNat → Memory.read a s1.mem = Memory.read a s2.mem) →
    ∃ t1 t2 : State cfg.pcW, hostStepIn cfg .start s1 = .done t1 .unit ∧
      hostStepIn cfg .start s2 = .done t2 .unit ∧ t1.runState = .run ∧ t1.Agrees t2 ∧
      t1.outlog = [] ∧ t2.outlog = []) ∧
  ∀ (cfg : Config) (s1 s2 : State cfg.pcW), s1.Agrees s2 → s1.runState = .run → ∀ k : Nat,
    (∃ (t1 t2 : State cfg.pcW) (out : List Byte),
      (coreIn cfg).run k s1 = .next t1 ∧ (coreIn cfg).run k s2 = .next t2 ∧ t1.Agrees t2 ∧
      t1.outlog = s1.outlog ++ out ∧ t2.outlog = s2.outlog ++ out) ∨
    ((∀ t, (coreIn cfg).run k s1 ≠ .next t) ∧ ∀ t, (coreIn cfg).run k s2 ≠ .next t)
end

