-- ==== Sys2Proof/Laws/Config.lean ====
section
/-! SUPPORT. The widths that follow from the capacity (00_scope.md R4). -/

namespace Sys2Proof

/-- MEM_CELLS is a PC_W-bit value, so LEN, which it bounds, never wraps (R4, R14; D6). -/
theorem Config.memCells_lt (cfg : Config) : cfg.memCells < 2 ^ cfg.pcW := Nat.lt_log2_self

/-- The default OVERFLOW_MODE (R4). Rewrite with this one, not with `Config.core` itself, which stands in
the type of every state of this hardware too. -/
@[simp] theorem Config.core_overflowMode : Config.core.overflowMode = .fault := rfl

/-- At the default capacity of 2048 the widths are 12 and 11 (R4). -/
theorem Config.core_widths : Config.core.pcW = 12 ∧ Config.core.addrW = 11 := by decide

end Sys2Proof
end

