-- ==== Sys2Proof/Laws/Decode.lean ====
section
/-! SUPPORT. The number an encoded word is, the fields of such a word, and what using a decoded cell can
give. -/

namespace Sys2Proof

/-! ## Words as numbers (R61 to R63) -/

theorem wordOfBody_toNat (b : Body) : (wordOfBody b).toNat = 8 * 2 ^ 20 + b.toNat := by
  have h : (wordOfBody b).toNat = (8#4).toNat <<< 20 ||| b.toNat := BitVec.toNat_append (8#4) b
  rw [h, ← Nat.shiftLeft_add_eq_or_of_lt b.isLt, Nat.shiftLeft_eq]
  rfl

theorem body_toNat (i : Instr) :
    i.body.toNat = i.opcode.toNat * 2 ^ 16 + (i.operandA.toNat * 2 ^ 8 + i.operandB.toNat) := by
  have h1 : (i.operandA ++ i.operandB : BitVec (8 + 8)).toNat =
      i.operandA.toNat * 2 ^ 8 + i.operandB.toNat := by
    rw [BitVec.toNat_append, ← Nat.shiftLeft_add_eq_or_of_lt i.operandB.isLt, Nat.shiftLeft_eq]
  have h2 : i.body.toNat =
      i.opcode.toNat <<< 16 ||| (i.operandA ++ i.operandB : BitVec (8 + 8)).toNat :=
    BitVec.toNat_append i.opcode (i.operandA ++ i.operandB : BitVec (8 + 8))
  have hlt : (i.operandA ++ i.operandB : BitVec (8 + 8)).toNat < 2 ^ 16 :=
    (i.operandA ++ i.operandB : BitVec (8 + 8)).isLt
  rw [h2, ← Nat.shiftLeft_add_eq_or_of_lt hlt, Nat.shiftLeft_eq, h1]

/-- An instruction's word as a number: 0x8p aa bb (R63). -/
theorem encode_toNat (i : Instr) : (encode i).toNat =
    8 * 2 ^ 20 + (i.opcode.toNat * 2 ^ 16 + (i.operandA.toNat * 2 ^ 8 + i.operandB.toNat)) := by
  rw [encode, wordOfBody_toNat, body_toNat]

theorem wordOfData_toNat (v : Byte) : (wordOfData v).toNat = v.toNat := by
  have h := v.isLt
  simp only [wordOfData, BitVec.truncate_eq_setWidth, BitVec.toNat_setWidth]
  omega

/-! ## Fields of a word as numbers (R61) -/

theorem tagOf_eq (w : CellWord) : tagOf w = decide (w.toNat / 2 ^ 23 % 2 = 1) := by
  simp [tagOf, BitVec.getLsbD, Nat.testBit_eq_decide_div_mod_eq]

theorem rsvOf_toNat (w : CellWord) : (rsvOf w).toNat = w.toNat / 2 ^ 20 % 8 := by
  simp [rsvOf, BitVec.extractLsb'_toNat, Nat.shiftRight_eq_div_pow]

theorem opcOf_toNat (w : CellWord) : (opcOf w).toNat = w.toNat / 2 ^ 16 % 16 := by
  simp [opcOf, BitVec.extractLsb'_toNat, Nat.shiftRight_eq_div_pow]

theorem fieldA_toNat (w : CellWord) : (fieldA w).toNat = w.toNat / 2 ^ 8 % 256 := by
  simp [fieldA, BitVec.extractLsb'_toNat, Nat.shiftRight_eq_div_pow]

theorem fieldB_toNat (w : CellWord) : (fieldB w).toNat = w.toNat % 256 := by
  simp [fieldB, BitVec.extractLsb'_toNat]

theorem dataHigh_toNat (w : CellWord) : (dataHigh w).toNat = w.toNat / 2 ^ 8 % 2 ^ 15 := by
  simp [dataHigh, BitVec.extractLsb'_toNat, Nat.shiftRight_eq_div_pow]

theorem rsvOf_eq_zero (w : CellWord) : rsvOf w = 0#3 ↔ w.toNat / 2 ^ 20 % 8 = 0 := by
  rw [← rsvOf_toNat]
  exact ⟨fun h => by rw [h]; rfl, fun h => BitVec.eq_of_toNat_eq h⟩

theorem dataHigh_eq_zero (w : CellWord) : dataHigh w = 0#15 ↔ w.toNat / 2 ^ 8 % 2 ^ 15 = 0 := by
  rw [← dataHigh_toNat]
  exact ⟨fun h => by rw [h]; rfl, fun h => BitVec.eq_of_toNat_eq h⟩

theorem fieldA_eq_ofNat (w : CellWord) (k : Nat) :
    fieldA w = BitVec.ofNat 8 k ↔ w.toNat / 2 ^ 8 % 256 = k % 256 := by
  rw [← fieldA_toNat]
  exact ⟨fun h => by rw [h]; simp, fun h => BitVec.eq_of_toNat_eq (by simp [h])⟩

theorem fieldB_eq_ofNat (w : CellWord) (k : Nat) :
    fieldB w = BitVec.ofNat 8 k ↔ w.toNat % 256 = k % 256 := by
  rw [← fieldB_toNat]
  exact ⟨fun h => by rw [h]; simp, fun h => BitVec.eq_of_toNat_eq (by simp [h])⟩

/-! ## Fields of an encoded word -/

theorem wordOfBody_tag (b : Body) : tagOf (wordOfBody b) = true := by
  have h := b.isLt
  rw [tagOf_eq, wordOfBody_toNat]
  simp only [decide_eq_true_eq]
  omega

theorem wordOfBody_rsv (b : Body) : rsvOf (wordOfBody b) = 0#3 := by
  have h := b.isLt
  apply BitVec.eq_of_toNat_eq
  rw [rsvOf_toNat, wordOfBody_toNat]
  show _ = 0
  omega

theorem encode_opc (i : Instr) : opcOf (encode i) = i.opcode := by
  have h := i.opcode.isLt
  have ha := i.operandA.isLt
  have hb := i.operandB.isLt
  apply BitVec.eq_of_toNat_eq
  rw [opcOf_toNat, encode_toNat]
  omega

theorem encode_fieldA (i : Instr) : fieldA (encode i) = i.operandA := by
  have ha := i.operandA.isLt
  have hb := i.operandB.isLt
  apply BitVec.eq_of_toNat_eq
  rw [fieldA_toNat, encode_toNat]
  omega

theorem encode_fieldB (i : Instr) : fieldB (encode i) = i.operandB := by
  have hb := i.operandB.isLt
  apply BitVec.eq_of_toNat_eq
  rw [fieldB_toNat, encode_toNat]
  omega

theorem wordOfData_tag (v : Byte) : tagOf (wordOfData v) = false := by
  have h := v.isLt
  rw [tagOf_eq, wordOfData_toNat]
  simp only [decide_eq_false_iff_not]
  omega

theorem wordOfData_high (v : Byte) : dataHigh (wordOfData v) = 0#15 := by
  have h := v.isLt
  apply BitVec.eq_of_toNat_eq
  rw [dataHigh_toNat, wordOfData_toNat]
  show _ = 0
  omega

theorem wordOfData_byte (v : Byte) : fieldB (wordOfData v) = v := by
  have h := v.isLt
  apply BitVec.eq_of_toNat_eq
  rw [fieldB_toNat, wordOfData_toNat]
  omega

/-- A word that decodes to an instruction has its tag set (R67). -/
theorem tagOf_of_decode_instr {w : CellWord} {i : Instr} (h : decodeCell w = .instr i) :
    tagOf w = true := by
  unfold decodeCell at h
  split at h
  · assumption
  · split at h <;> cases h

end Sys2Proof
end

