-- ==== Sys2Proof/Laws/State.lean ====
section
/-! SUPPORT. What each update of the state does to each field, so that no proof unfolds an update. -/

namespace Sys2Proof.Machine

variable {pcW : Nat}

/-! ### `State.writeReg` -/

@[simp] theorem State.writeReg_regs (r : RegIdx) (v : Byte) (s : State pcW) :
    (s.writeReg r v).regs = s.regs.set r.val v r.isLt := rfl
@[simp] theorem State.writeReg_pc (r : RegIdx) (v : Byte) (s : State pcW) :
    (s.writeReg r v).pc = s.pc := rfl
@[simp] theorem State.writeReg_mem (r : RegIdx) (v : Byte) (s : State pcW) :
    (s.writeReg r v).mem = s.mem := rfl
@[simp] theorem State.writeReg_len (r : RegIdx) (v : Byte) (s : State pcW) :
    (s.writeReg r v).len = s.len := rfl
@[simp] theorem State.writeReg_runState (r : RegIdx) (v : Byte) (s : State pcW) :
    (s.writeReg r v).runState = s.runState := rfl
@[simp] theorem State.writeReg_faultCause (r : RegIdx) (v : Byte) (s : State pcW) :
    (s.writeReg r v).faultCause = s.faultCause := rfl
@[simp] theorem State.writeReg_faultAddr (r : RegIdx) (v : Byte) (s : State pcW) :
    (s.writeReg r v).faultAddr = s.faultAddr := rfl
@[simp] theorem State.writeReg_outlog (r : RegIdx) (v : Byte) (s : State pcW) :
    (s.writeReg r v).outlog = s.outlog := rfl

/-! ### `State.advancePc` -/

@[simp] theorem State.advancePc_regs (s : State pcW) :
    (s.advancePc).regs = s.regs := rfl
@[simp] theorem State.advancePc_pc (s : State pcW) :
    (s.advancePc).pc = s.pc + 1 := rfl
@[simp] theorem State.advancePc_mem (s : State pcW) :
    (s.advancePc).mem = s.mem := rfl
@[simp] theorem State.advancePc_len (s : State pcW) :
    (s.advancePc).len = s.len := rfl
@[simp] theorem State.advancePc_runState (s : State pcW) :
    (s.advancePc).runState = s.runState := rfl
@[simp] theorem State.advancePc_faultCause (s : State pcW) :
    (s.advancePc).faultCause = s.faultCause := rfl
@[simp] theorem State.advancePc_faultAddr (s : State pcW) :
    (s.advancePc).faultAddr = s.faultAddr := rfl
@[simp] theorem State.advancePc_outlog (s : State pcW) :
    (s.advancePc).outlog = s.outlog := rfl

/-! ### `State.halt` -/

@[simp] theorem State.halt_regs (s : State pcW) :
    (s.halt).regs = s.regs := rfl
@[simp] theorem State.halt_pc (s : State pcW) :
    (s.halt).pc = s.pc := rfl
@[simp] theorem State.halt_mem (s : State pcW) :
    (s.halt).mem = s.mem := rfl
@[simp] theorem State.halt_len (s : State pcW) :
    (s.halt).len = s.len := rfl
@[simp] theorem State.halt_runState (s : State pcW) :
    (s.halt).runState = .halted := rfl
@[simp] theorem State.halt_faultCause (s : State pcW) :
    (s.halt).faultCause = s.faultCause := rfl
@[simp] theorem State.halt_faultAddr (s : State pcW) :
    (s.halt).faultAddr = s.faultAddr := rfl
@[simp] theorem State.halt_outlog (s : State pcW) :
    (s.halt).outlog = s.outlog := rfl

/-! ### `State.start` -/

@[simp] theorem State.start_regs (s : State pcW) :
    (s.start).regs = s.regs := rfl
@[simp] theorem State.start_pc (s : State pcW) :
    (s.start).pc = s.pc := rfl
@[simp] theorem State.start_mem (s : State pcW) :
    (s.start).mem = s.mem := rfl
@[simp] theorem State.start_len (s : State pcW) :
    (s.start).len = s.len := rfl
@[simp] theorem State.start_runState (s : State pcW) :
    (s.start).runState = .run := rfl
@[simp] theorem State.start_faultCause (s : State pcW) :
    (s.start).faultCause = s.faultCause := rfl
@[simp] theorem State.start_faultAddr (s : State pcW) :
    (s.start).faultAddr = s.faultAddr := rfl
@[simp] theorem State.start_outlog (s : State pcW) :
    (s.start).outlog = s.outlog := rfl

/-! ### `State.emit` -/

@[simp] theorem State.emit_regs (v : Byte) (s : State pcW) :
    (s.emit v).regs = s.regs := rfl
@[simp] theorem State.emit_pc (v : Byte) (s : State pcW) :
    (s.emit v).pc = s.pc := rfl
@[simp] theorem State.emit_mem (v : Byte) (s : State pcW) :
    (s.emit v).mem = s.mem := rfl
@[simp] theorem State.emit_len (v : Byte) (s : State pcW) :
    (s.emit v).len = s.len := rfl
@[simp] theorem State.emit_runState (v : Byte) (s : State pcW) :
    (s.emit v).runState = s.runState := rfl
@[simp] theorem State.emit_faultCause (v : Byte) (s : State pcW) :
    (s.emit v).faultCause = s.faultCause := rfl
@[simp] theorem State.emit_faultAddr (v : Byte) (s : State pcW) :
    (s.emit v).faultAddr = s.faultAddr := rfl
@[simp] theorem State.emit_outlog (v : Byte) (s : State pcW) :
    (s.emit v).outlog = s.outlog ++ [v] := rfl

/-! ### `State.raise` -/

@[simp] theorem State.raise_regs (c : FaultCause) (a : BitVec pcW) (s : State pcW) :
    (s.raise c a).regs = s.regs := rfl
@[simp] theorem State.raise_pc (c : FaultCause) (a : BitVec pcW) (s : State pcW) :
    (s.raise c a).pc = s.pc := rfl
@[simp] theorem State.raise_mem (c : FaultCause) (a : BitVec pcW) (s : State pcW) :
    (s.raise c a).mem = s.mem := rfl
@[simp] theorem State.raise_len (c : FaultCause) (a : BitVec pcW) (s : State pcW) :
    (s.raise c a).len = s.len := rfl
@[simp] theorem State.raise_runState (c : FaultCause) (a : BitVec pcW) (s : State pcW) :
    (s.raise c a).runState = .fault := rfl
@[simp] theorem State.raise_faultCause (c : FaultCause) (a : BitVec pcW) (s : State pcW) :
    (s.raise c a).faultCause = c := rfl
@[simp] theorem State.raise_faultAddr (c : FaultCause) (a : BitVec pcW) (s : State pcW) :
    (s.raise c a).faultAddr = a := rfl
@[simp] theorem State.raise_outlog (c : FaultCause) (a : BitVec pcW) (s : State pcW) :
    (s.raise c a).outlog = s.outlog := rfl

/-! ### `State.setCell` -/

@[simp] theorem State.setCell_regs (a : BitVec pcW) (w : CellWord) (s : State pcW) :
    (s.setCell a w).regs = s.regs := rfl
@[simp] theorem State.setCell_pc (a : BitVec pcW) (w : CellWord) (s : State pcW) :
    (s.setCell a w).pc = s.pc := rfl
@[simp] theorem State.setCell_mem (a : BitVec pcW) (w : CellWord) (s : State pcW) :
    (s.setCell a w).mem = Memory.write a.toNat w s.mem := rfl
@[simp] theorem State.setCell_len (a : BitVec pcW) (w : CellWord) (s : State pcW) :
    (s.setCell a w).len = s.len := rfl
@[simp] theorem State.setCell_runState (a : BitVec pcW) (w : CellWord) (s : State pcW) :
    (s.setCell a w).runState = s.runState := rfl
@[simp] theorem State.setCell_faultCause (a : BitVec pcW) (w : CellWord) (s : State pcW) :
    (s.setCell a w).faultCause = s.faultCause := rfl
@[simp] theorem State.setCell_faultAddr (a : BitVec pcW) (w : CellWord) (s : State pcW) :
    (s.setCell a w).faultAddr = s.faultAddr := rfl
@[simp] theorem State.setCell_outlog (a : BitVec pcW) (w : CellWord) (s : State pcW) :
    (s.setCell a w).outlog = s.outlog := rfl

/-! ### `State.setLen` -/

@[simp] theorem State.setLen_regs (n : BitVec pcW) (s : State pcW) :
    (s.setLen n).regs = s.regs := rfl
@[simp] theorem State.setLen_pc (n : BitVec pcW) (s : State pcW) :
    (s.setLen n).pc = s.pc := rfl
@[simp] theorem State.setLen_mem (n : BitVec pcW) (s : State pcW) :
    (s.setLen n).mem = s.mem := rfl
@[simp] theorem State.setLen_len (n : BitVec pcW) (s : State pcW) :
    (s.setLen n).len = n := rfl
@[simp] theorem State.setLen_runState (n : BitVec pcW) (s : State pcW) :
    (s.setLen n).runState = s.runState := rfl
@[simp] theorem State.setLen_faultCause (n : BitVec pcW) (s : State pcW) :
    (s.setLen n).faultCause = s.faultCause := rfl
@[simp] theorem State.setLen_faultAddr (n : BitVec pcW) (s : State pcW) :
    (s.setLen n).faultAddr = s.faultAddr := rfl
@[simp] theorem State.setLen_outlog (n : BitVec pcW) (s : State pcW) :
    (s.setLen n).outlog = s.outlog := rfl

/-! ### Reading a register or a cell after an update -/

@[simp] theorem State.writeReg_cell (r : RegIdx) (v : Byte) (s : State pcW) (k : BitVec pcW) :
    (s.writeReg r v).cell k = s.cell k := rfl
@[simp] theorem State.advancePc_reg (s : State pcW) (k : RegIdx) :
    (s.advancePc).reg k = s.reg k := rfl
@[simp] theorem State.advancePc_cell (s : State pcW) (k : BitVec pcW) :
    (s.advancePc).cell k = s.cell k := rfl
@[simp] theorem State.halt_reg (s : State pcW) (k : RegIdx) :
    (s.halt).reg k = s.reg k := rfl
@[simp] theorem State.halt_cell (s : State pcW) (k : BitVec pcW) :
    (s.halt).cell k = s.cell k := rfl
@[simp] theorem State.start_reg (s : State pcW) (k : RegIdx) :
    (s.start).reg k = s.reg k := rfl
@[simp] theorem State.start_cell (s : State pcW) (k : BitVec pcW) :
    (s.start).cell k = s.cell k := rfl
@[simp] theorem State.emit_reg (v : Byte) (s : State pcW) (k : RegIdx) :
    (s.emit v).reg k = s.reg k := rfl
@[simp] theorem State.emit_cell (v : Byte) (s : State pcW) (k : BitVec pcW) :
    (s.emit v).cell k = s.cell k := rfl
@[simp] theorem State.raise_reg (c : FaultCause) (a : BitVec pcW) (s : State pcW) (k : RegIdx) :
    (s.raise c a).reg k = s.reg k := rfl
@[simp] theorem State.raise_cell (c : FaultCause) (a : BitVec pcW) (s : State pcW) (k : BitVec pcW) :
    (s.raise c a).cell k = s.cell k := rfl
@[simp] theorem State.setCell_reg (a : BitVec pcW) (w : CellWord) (s : State pcW) (k : RegIdx) :
    (s.setCell a w).reg k = s.reg k := rfl
@[simp] theorem State.setLen_reg (n : BitVec pcW) (s : State pcW) (k : RegIdx) :
    (s.setLen n).reg k = s.reg k := rfl
@[simp] theorem State.setLen_cell (n : BitVec pcW) (s : State pcW) (k : BitVec pcW) :
    (s.setLen n).cell k = s.cell k := rfl

theorem State.reg_writeReg_same (r : RegIdx) (v : Byte) (s : State pcW) : (s.writeReg r v).reg r = v := by
  simp [State.reg]

theorem State.reg_writeReg_other (r k : RegIdx) (v : Byte) (s : State pcW) (h : k ≠ r) :
    (s.writeReg r v).reg k = s.reg k := by
  have h' : r.val ≠ k.val := fun e => h (Fin.ext e.symm)
  simp [State.reg, h']

/-- Two states with the same fields are the same state. -/
theorem State.eq_of_fields {s t : State pcW} (h1 : s.regs = t.regs) (h2 : s.pc = t.pc) (h3 : s.mem = t.mem)
    (h4 : s.len = t.len) (h5 : s.runState = t.runState) (h6 : s.faultCause = t.faultCause)
    (h7 : s.faultAddr = t.faultAddr) (h8 : s.outlog = t.outlog) : s = t := by
  cases s; cases t; simp_all

end Sys2Proof.Machine
end

