-- ==== Sys2Proof/Laws/Memory.lean ====
section
/-! SUPPORT. Memory: a read gives what was last written, a write leaves every other address alone, and
every operation on memory keeps the canonical form. -/

namespace Sys2Proof.Machine

variable {pcW : Nat}

theorem Memory.read_insert (a b : Nat) (w : CellWord) (m : Memory) :
    Memory.read b (Memory.insert a w m) = if a = b then w else Memory.read b m := by
  induction m with
  | nil => rfl
  | cons p rest ih =>
    obtain ⟨k, v⟩ := p
    unfold Memory.insert
    split
    · rfl
    · split
      · rename_i e
        subst e
        simp only [Memory.read]
        split <;> rfl
      · rename_i e
        simp only [Memory.read, ih]
        split
        · rename_i ek
          subst ek
          simp [e]
        · rfl

theorem Memory.read_erase (a b : Nat) (m : Memory) :
    Memory.read b (Memory.erase a m) = if a = b then blankCell else Memory.read b m := by
  induction m with
  | nil => simp [Memory.erase, Memory.read]
  | cons p rest ih =>
    obtain ⟨k, v⟩ := p
    by_cases h : k = a
    · subst h
      have e : Memory.erase k ((k, v) :: rest) = Memory.erase k rest := by simp [Memory.erase]
      rw [e, ih]
      simp only [Memory.read]
      split <;> rfl
    · have e : Memory.erase a ((k, v) :: rest) = (k, v) :: Memory.erase a rest := by
        simp [Memory.erase, h]
      rw [e]
      simp only [Memory.read, ih]
      split
      · rename_i ek
        subst ek
        simp [Ne.symm h]
      · rfl

/-- A read after a write: the word written at its address, the old word everywhere else. -/
theorem Memory.read_write (a b : Nat) (w : CellWord) (m : Memory) :
    Memory.read b (Memory.write a w m) = if a = b then w else Memory.read b m := by
  unfold Memory.write
  split
  · rename_i h
    rw [Memory.read_erase, h]
  · exact Memory.read_insert a b w m

@[simp] theorem Memory.read_write_same (a : Nat) (w : CellWord) (m : Memory) :
    Memory.read a (Memory.write a w m) = w := by
  simp [Memory.read_write]

theorem Memory.read_write_other (a b : Nat) (w : CellWord) (m : Memory) (h : a ≠ b) :
    Memory.read b (Memory.write a w m) = Memory.read b m := by
  simp [Memory.read_write, h]

/-- An address with no pair reads as `blankCell`. -/
theorem Memory.read_of_unlisted {a : Nat} {m : Memory} (h : ∀ p ∈ m, p.1 ≠ a) :
    Memory.read a m = blankCell := by
  induction m with
  | nil => rfl
  | cons p rest ih =>
    obtain ⟨k, v⟩ := p
    have hk : k ≠ a := h _ List.mem_cons_self
    simp only [Memory.read, if_neg hk]
    exact ih fun p hp => h p (List.mem_cons_of_mem _ hp)

theorem Memory.wf_cons {p : Nat × CellWord} {m : Memory} (h : Memory.wf (p :: m)) :
    Memory.wf m ∧ (∀ q ∈ m, p.1 < q.1) ∧ p.2 ≠ blankCell :=
  ⟨⟨(List.pairwise_cons.1 h.1).2, fun q hq => h.2 q (List.mem_cons_of_mem _ hq)⟩,
    (List.pairwise_cons.1 h.1).1, h.2 p List.mem_cons_self⟩

theorem Memory.mem_insert {a : Nat} {w : CellWord} {m : Memory} {p : Nat × CellWord}
    (h : p ∈ Memory.insert a w m) : p = (a, w) ∨ p ∈ m := by
  induction m with
  | nil => exact .inl (by simpa [Memory.insert] using h)
  | cons q rest ih =>
    obtain ⟨k, v⟩ := q
    unfold Memory.insert at h
    split at h
    · simpa using h
    · split at h
      · rcases List.mem_cons.1 h with h | h
        · exact .inl h
        · exact .inr (List.mem_cons_of_mem _ h)
      · rcases List.mem_cons.1 h with h | h
        · exact .inr (h ▸ List.mem_cons_self)
        · exact (ih h).imp id (List.mem_cons_of_mem _)

theorem Memory.mem_write {a : Nat} {w : CellWord} {m : Memory} {p : Nat × CellWord}
    (h : p ∈ Memory.write a w m) : p = (a, w) ∨ p ∈ m := by
  unfold Memory.write at h
  split at h
  · exact .inr (List.mem_filter.1 h).1
  · exact Memory.mem_insert h

theorem Memory.insert_sorted {a : Nat} {w : CellWord} {m : Memory}
    (h : m.Pairwise (fun p q => p.1 < q.1)) :
    (Memory.insert a w m).Pairwise (fun p q => p.1 < q.1) := by
  induction m with
  | nil => simp [Memory.insert]
  | cons q rest ih =>
    obtain ⟨k, v⟩ := q
    obtain ⟨hk, hr⟩ := List.pairwise_cons.1 h
    unfold Memory.insert
    split
    · rename_i hlt
      refine List.pairwise_cons.2 ⟨fun p hp => ?_, h⟩
      rcases List.mem_cons.1 hp with e | e
      · subst e; exact hlt
      · exact Nat.lt_trans hlt (hk p e)
    · split
      · rename_i e
        subst e
        exact List.pairwise_cons.2 ⟨hk, hr⟩
      · refine List.pairwise_cons.2 ⟨fun p hp => ?_, ih hr⟩
        rcases Memory.mem_insert hp with e | e
        · subst e; simp only; omega
        · exact hk p e

theorem Memory.erase_wf {a : Nat} {m : Memory} (h : Memory.wf m) : Memory.wf (Memory.erase a m) :=
  ⟨h.1.filter _, fun p hp => h.2 p (List.mem_filter.1 hp).1⟩

/-- A write keeps the canonical form. -/
theorem Memory.write_wf {a : Nat} {w : CellWord} {m : Memory} (h : Memory.wf m) :
    Memory.wf (Memory.write a w m) := by
  unfold Memory.write
  split
  · exact Memory.erase_wf h
  · rename_i hw
    refine ⟨Memory.insert_sorted h.1, fun p hp => ?_⟩
    rcases Memory.mem_insert hp with e | e
    · subst e; exact hw
    · exact h.2 p e

theorem State.resetAt_mem_wf (pcW : Nat) : Memory.wf (State.resetAt pcW).mem :=
  ⟨.nil, nofun⟩

theorem State.reset_mem_wf : Memory.wf State.reset.mem := State.resetAt_mem_wf _

/-- An append answers a state in one way only (R36, R37, R42). -/
theorem memAppend_ok {cfg : Config} {w : CellWord} {s t : State cfg.pcW} (e : memAppend cfg w s = .ok t) :
    s.len.toNat ≠ cfg.memCells ∧ t = (s.setCell s.len w).setLen (s.len + 1) := by
  unfold memAppend at e
  split at e
  · cases e
  · cases e
    exact ⟨‹_›, rfl⟩

/-- A pop answers a state in one way only (R39). -/
theorem memPop_ok {s t : State pcW} {i : Instr} (e : memPop s = .ok (t, i)) :
    s.len ≠ 0 ∧ useAsInstr (s.cell (s.len - 1)) (s.len - 1) = .ok i ∧
      t = (s.setCell (s.len - 1) blankCell).setLen (s.len - 1) := by
  unfold memPop at e
  split at e
  · cases e
  · split at e
    · rename_i hl _ i' hu
      cases e
      exact ⟨hl, hu, rfl⟩
    · cases e

/-- A write answers a state in one way only (R41). -/
theorem memWrite_ok {a : BitVec pcW} {v : Byte} {s t : State pcW} (e : memWrite a v s = .ok t) :
    a < s.len ∧ t = s.setCell a (wordOfData v) := by
  unfold memWrite at e
  split at e
  · cases e
  · cases e
    exact ⟨BitVec.not_le.1 ‹_›, rfl⟩

theorem memAppend_wf {cfg : Config} {w : CellWord} {s t : State cfg.pcW} (h : Memory.wf s.mem)
    (e : memAppend cfg w s = .ok t) : Memory.wf t.mem := by
  obtain ⟨_, rfl⟩ := memAppend_ok e
  exact Memory.write_wf (a := s.len.toNat) h

theorem memPop_wf {s t : State pcW} {i : Instr} (h : Memory.wf s.mem)
    (e : memPop s = .ok (t, i)) : Memory.wf t.mem := by
  obtain ⟨_, _, rfl⟩ := memPop_ok e
  simp only [State.setLen_mem, State.setCell_mem]
  exact Memory.write_wf h

theorem memWrite_wf {a : BitVec pcW} {v : Byte} {s t : State pcW} (h : Memory.wf s.mem)
    (e : memWrite a v s = .ok t) : Memory.wf t.mem := by
  obtain ⟨_, rfl⟩ := memWrite_ok e
  exact Memory.write_wf (a := a.toNat) h

end Sys2Proof.Machine
end

