-- ==== Sys2Proof/Laws/Ops.lean ====
section
/-! SUPPORT. One lemma for each shared operation that says everything it can do; proofs cite these and
do not unfold the operation. -/

namespace Sys2Proof.Machine

variable {pcW : Nat}

/-! ## Operands and results -/

theorem regIdx?_of_lt {i : Byte} (h : i.toNat < 8) : regIdx? i = some ⟨i.toNat, h⟩ := dif_pos h

theorem regIdx?_of_ge {i : Byte} (h : 8 ≤ i.toNat) : regIdx? i = none := dif_neg (Nat.not_lt.2 h)

/-- `CheckReg` passes an index that names a register (R99). -/
theorem withReg_of_idx {i : Byte} {r : RegIdx} (h : i.toNat = r.val) (s : State pcW) (k : RegIdx → State pcW) :
    withReg i s k = k r := by
  have hlt : i.toNat < 8 := h ▸ r.isLt
  have hr : (⟨i.toNat, hlt⟩ : RegIdx) = r := Fin.ext h
  simp [withReg, regIdx?_of_lt hlt, hr]

/-- `CheckReg` raises on an index above 7 (R99). -/
theorem withReg_of_bad {i : Byte} (h : 7 < i.toNat) (s : State pcW) (k : RegIdx → State pcW) :
    withReg i s k = s.raise .registerIndexViolation (s.pc - 1) := by
  simp [withReg, regIdx?_of_ge h]

theorem withRegs_of_idx {a b : Byte} {ra rb : RegIdx} (ha : a.toNat = ra.val) (hb : b.toNat = rb.val)
    (s : State pcW) (k : RegIdx → RegIdx → State pcW) : withRegs a b s k = k ra rb := by
  simp [withRegs, withReg_of_idx ha, withReg_of_idx hb]

theorem withRegs_of_bad {a b : Byte} (h : 7 < a.toNat ∨ 7 < b.toNat) (s : State pcW)
    (k : RegIdx → RegIdx → State pcW) :
    withRegs a b s k = s.raise .registerIndexViolation (s.pc - 1) := by
  by_cases ha : 7 < a.toNat
  · simp [withRegs, withReg_of_bad ha]
  · have hb : 7 < b.toNat := h.resolve_left ha
    have ha' : a.toNat = (⟨a.toNat, by omega⟩ : RegIdx).val := rfl
    simp [withRegs, withReg_of_idx ha', withReg_of_bad hb]

/-- An index either names a register or is above 7. -/
theorem idx_or_bad (i : Byte) : (∃ r : RegIdx, i.toNat = r.val) ∨ 7 < i.toNat := by
  by_cases h : i.toNat < 8
  · exact .inl ⟨⟨i.toNat, h⟩, rfl⟩
  · exact .inr (by omega)

theorem withReg_cases (i : Byte) (s : State pcW) (k : RegIdx → State pcW) :
    (∃ r : RegIdx, i.toNat = r.val ∧ withReg i s k = k r) ∨
      (7 < i.toNat ∧ withReg i s k = s.raise .registerIndexViolation (s.pc - 1)) := by
  rcases idx_or_bad i with ⟨r, h⟩ | h
  · exact .inl ⟨r, h, withReg_of_idx h s k⟩
  · exact .inr ⟨h, withReg_of_bad h s k⟩

theorem withRegs_cases (a b : Byte) (s : State pcW) (k : RegIdx → RegIdx → State pcW) :
    (∃ ra rb : RegIdx, a.toNat = ra.val ∧ b.toNat = rb.val ∧ withRegs a b s k = k ra rb) ∨
      ((7 < a.toNat ∨ 7 < b.toNat) ∧
        withRegs a b s k = s.raise .registerIndexViolation (s.pc - 1)) := by
  rcases idx_or_bad a with ⟨ra, ha⟩ | ha
  · rcases idx_or_bad b with ⟨rb, hb⟩ | hb
    · exact .inl ⟨ra, rb, ha, hb, withRegs_of_idx ha hb s k⟩
    · exact .inr ⟨.inr hb, withRegs_of_bad (.inr hb) s k⟩
  · exact .inr ⟨.inl ha, withRegs_of_bad (.inl ha) s k⟩

theorem ovf_of_in_range {mode : OverflowMode} {x : Int} (h0 : 0 ≤ x) (h1 : x ≤ 255) :
    ovf mode x = some (BitVec.ofInt 8 x) := if_pos ⟨h0, h1⟩

theorem ovf_fault_of_out {x : Int} (h : x < 0 ∨ 255 < x) : ovf .fault x = none := by
  have h' : ¬ (0 ≤ x ∧ x ≤ 255) := by omega
  simp [ovf, h']

theorem ovf_wrap (x : Int) : ovf .wrap x = some (BitVec.ofInt 8 x) := by
  unfold ovf
  split <;> rfl

/-- ADD's result in both modes: the sum mod 256, if there is a result (R111, R117). -/
theorem addResult_eq (mode : OverflowMode) (x y : Byte) : addResult mode x y =
    if x.toNat + y.toNat ≤ 255 ∨ mode = .wrap then some (BitVec.ofNat 8 (x.toNat + y.toNat)) else none := by
  have hv : BitVec.ofInt 8 ((x.toNat : Int) + (y.toNat : Int)) = BitVec.ofNat 8 (x.toNat + y.toNat) :=
    BitVec.ofInt_natCast 8 (x.toNat + y.toNat)
  unfold addResult
  by_cases h : x.toNat + y.toNat ≤ 255
  · rw [if_pos (.inl h), ovf_of_in_range (by omega) (by omega), hv]
  · cases mode with
    | fault => rw [if_neg (by simpa using h), ovf_fault_of_out (by omega)]
    | wrap => rw [if_pos (.inr rfl), ovf_wrap, hv]

/-- SUB's result in both modes: the difference mod 256, if there is a result (R112, R117). -/
theorem subResult_eq (mode : OverflowMode) (x y : Byte) : subResult mode x y =
    if y.toNat ≤ x.toNat ∨ mode = .wrap then some (x - y) else none := by
  have hx := x.isLt
  have hy := y.isLt
  have hv : BitVec.ofInt 8 ((x.toNat : Int) - (y.toNat : Int)) = x - y := by
    apply BitVec.eq_of_toNat_eq
    rw [BitVec.toNat_ofInt, BitVec.toNat_sub]
    omega
  unfold subResult
  by_cases h : y.toNat ≤ x.toNat
  · rw [if_pos (.inl h), ovf_of_in_range (by omega) (by omega), hv]
  · cases mode with
    | fault => rw [if_neg (by simpa using h), ovf_fault_of_out (by omega)]
    | wrap => rw [if_pos (.inr rfl), ovf_wrap, hv]

/-- Everything a two-operand ALU instruction can do (R110). -/
theorem binaryAlu_cases (f : Byte → Byte → Option Byte) (a b : Byte) (s : State pcW) :
    (∃ ra rb : RegIdx, a.toNat = ra.val ∧ b.toNat = rb.val ∧
      ((∃ v, f (s.reg ra) (s.reg rb) = some v ∧ binaryAlu f a b s = s.writeReg 0 v) ∨
        (f (s.reg ra) (s.reg rb) = none ∧
          binaryAlu f a b s = s.raise .arithmeticOverflow (s.pc - 1)))) ∨
      ((7 < a.toNat ∨ 7 < b.toNat) ∧
        binaryAlu f a b s = s.raise .registerIndexViolation (s.pc - 1)) := by
  unfold binaryAlu
  rcases withRegs_cases a b s (fun ra rb => writeResult (f (s.reg ra) (s.reg rb)) s) with
    ⟨ra, rb, ha, hb, e⟩ | ⟨h, e⟩
  · refine .inl ⟨ra, rb, ha, hb, ?_⟩
    rw [e]
    cases hf : f (s.reg ra) (s.reg rb) with
    | some v => exact .inl ⟨v, rfl, rfl⟩
    | none => exact .inr ⟨rfl, rfl⟩
  · exact .inr ⟨h, e⟩

/-! ## When an instruction faults -/

/-- Two registers whose indices are known decide whether ADD's result leaves the byte. -/
theorem resultLeavesByte_add {a b : Byte} {ra rb : RegIdx} (ha : a.toNat = ra.val) (hb : b.toNat = rb.val)
    (s : State pcW) :
    resultLeavesByte (.add a b) s ↔ 255 < (s.reg ra).toNat + (s.reg rb).toNat := by
  constructor
  · rintro ⟨a', b', ra', rb', ha', hb', ⟨e, h⟩ | ⟨e, _⟩⟩
    · cases e
      rwa [← Fin.ext (ha.symm.trans ha'), ← Fin.ext (hb.symm.trans hb')] at h
    · cases e
  · exact fun h => ⟨a, b, ra, rb, ha, hb, .inl ⟨rfl, h⟩⟩

theorem resultLeavesByte_sub {a b : Byte} {ra rb : RegIdx} (ha : a.toNat = ra.val) (hb : b.toNat = rb.val)
    (s : State pcW) :
    resultLeavesByte (.sub a b) s ↔ (s.reg ra).toNat < (s.reg rb).toNat := by
  constructor
  · rintro ⟨a', b', ra', rb', ha', hb', ⟨e, _⟩ | ⟨e, h⟩⟩
    · cases e
    · cases e
      rwa [← Fin.ext (ha.symm.trans ha'), ← Fin.ext (hb.symm.trans hb')] at h
  · exact fun h => ⟨a, b, ra, rb, ha, hb, .inr ⟨rfl, h⟩⟩

/-- Only ADD and SUB have a result that can leave the byte (R118). -/
theorem not_resultLeavesByte {i : Instr} (h1 : ∀ a b, i ≠ .add a b) (h2 : ∀ a b, i ≠ .sub a b)
    (s : State pcW) : ¬ resultLeavesByte i s := by
  rintro ⟨a, b, _, _, _, _, ⟨e, _⟩ | ⟨e, _⟩⟩
  · exact h1 a b e
  · exact h2 a b e

theorem regsValid_one {i : Instr} {a : Byte} (h : i.regOperands = [a]) :
    i.regsValid = false ↔ 7 < a.toNat := by
  simp [Instr.regsValid, h]

theorem regsValid_two {i : Instr} {a b : Byte} (h : i.regOperands = [a, b]) :
    i.regsValid = false ↔ 7 < a.toNat ∨ 7 < b.toNat := by
  simp [Instr.regsValid, h]
  omega

/-! ## Using a cell as an instruction, and the fetch -/

theorem useAsInstr_of_instr {w : CellWord} {i : Instr} (h : decodeCell w = .instr i) (a : BitVec pcW) :
    useAsInstr w a = .ok i := by
  simp [useAsInstr, tagOf_of_decode_instr h, h]

theorem useAsInstr_of_data {w : CellWord} (h : tagOf w = false) (a : BitVec pcW) :
    useAsInstr w a = .error ⟨.memoryTypeViolation, a⟩ := by
  simp [useAsInstr, h]

theorem useAsInstr_of_bad {w : CellWord} (h : tagOf w = true) (hd : ∀ i, decodeCell w ≠ .instr i)
    (a : BitVec pcW) : useAsInstr w a = .error ⟨.illegalEncoding, a⟩ := by
  unfold useAsInstr
  split
  · split
    · rename_i i e
      exact absurd e (hd i)
    · rfl
  · rename_i h'
    exact absurd h h'

/-- Everything a use of a cell as an instruction can answer (R38, R190). -/
theorem useAsInstr_cases (w : CellWord) (a : BitVec pcW) :
    (∃ i, decodeCell w = .instr i ∧ useAsInstr w a = .ok i) ∨
      (tagOf w = false ∧ useAsInstr w a = .error ⟨.memoryTypeViolation, a⟩) ∨
      (tagOf w = true ∧ (∀ i, decodeCell w ≠ .instr i) ∧
        useAsInstr w a = .error ⟨.illegalEncoding, a⟩) := by
  by_cases hi : ∃ i, decodeCell w = .instr i
  · obtain ⟨i, h⟩ := hi
    exact .inl ⟨i, h, useAsInstr_of_instr h a⟩
  · have hd : ∀ i, decodeCell w ≠ .instr i := fun i e => hi ⟨i, e⟩
    by_cases ht : tagOf w = true
    · exact .inr (.inr ⟨ht, hd, useAsInstr_of_bad ht hd a⟩)
    · have hf : tagOf w = false := by simpa using ht
      exact .inr (.inl ⟨hf, useAsInstr_of_data hf a⟩)

theorem memFetch_of_lt {a : BitVec pcW} {s : State pcW} (h : a < s.len) :
    memFetch a s = useAsInstr (s.cell a) a := if_neg (BitVec.not_le.2 h)

/-! ## Execution -/

@[simp] theorem execIn_core (i : Instr) (s : State) : execIn .fault i s = exec i s := by
  cases i <;> rfl

/-- How an instruction can change the state (R94, R96): one register written or one value emitted, a
normal halt, or one of its two faults; and which of these it is. -/
def ExecEffect (mode : OverflowMode) (i : Instr) (s t : State pcW) : Prop :=
  (i ≠ .hlt ∧ ¬ faultsAt mode i s ∧
      ((∃ r v, t = s.writeReg r v) ∨
        ∃ (a : Byte) (r : RegIdx), i = .out a ∧ a.toNat = r.val ∧ t = s.emit (s.reg r))) ∨
    (i = .hlt ∧ t = s.halt) ∨
    (i ≠ .hlt ∧ i.regsValid = false ∧ t = s.raise .registerIndexViolation (s.pc - 1)) ∨
    (i ≠ .hlt ∧ i.regsValid = true ∧ mode = .fault ∧ resultLeavesByte i s ∧
      t = s.raise .arithmeticOverflow (s.pc - 1))

/-- A two-operand ALU instruction whose result is missing exactly where it leaves the byte. -/
theorem execEffect_binaryAlu {mode : OverflowMode} {f : Byte → Byte → Option Byte} {i : Instr} {a b : Byte}
    {s : State pcW} (hi : i ≠ .hlt) (ho : i.regOperands = [a, b])
    (hf : ∀ ra rb : RegIdx, a.toNat = ra.val → b.toNat = rb.val →
      (f (s.reg ra) (s.reg rb) = none ↔ mode = .fault ∧ resultLeavesByte i s)) :
    ExecEffect mode i s (binaryAlu f a b s) := by
  have hv := regsValid_two ho
  rcases binaryAlu_cases f a b s with ⟨ra, rb, ha, hb, h⟩ | ⟨hbad, e⟩
  · have hok : i.regsValid ≠ false := fun e => by
      have := hv.1 e
      have := ra.isLt
      have := rb.isLt
      omega
    rcases h with ⟨v, hs, e⟩ | ⟨hn, e⟩
    · refine .inl ⟨hi, ?_, .inl ⟨0, v, e⟩⟩
      rintro (h | h)
      · exact hok h
      · rw [(hf ra rb ha hb).2 h] at hs
        cases hs
    · obtain ⟨hm, hr⟩ := (hf ra rb ha hb).1 hn
      exact .inr (.inr (.inr ⟨hi, by simpa using hok, hm, hr, e⟩))
  · exact .inr (.inr (.inl ⟨hi, hv.2 hbad, e⟩))

/-- An instruction that does nothing but write a register or emit one, once its indices are checked. -/
theorem execEffect_plain {mode : OverflowMode} {i : Instr} {s t : State pcW} (hi : i ≠ .hlt)
    (hr : ¬ resultLeavesByte i s)
    (h : (i.regsValid = true ∧ ((∃ r v, t = s.writeReg r v) ∨
        ∃ (a : Byte) (r : RegIdx), i = .out a ∧ a.toNat = r.val ∧ t = s.emit (s.reg r))) ∨
      (i.regsValid = false ∧ t = s.raise .registerIndexViolation (s.pc - 1))) :
    ExecEffect mode i s t := by
  rcases h with ⟨hv, h⟩ | h
  · refine .inl ⟨hi, ?_, h⟩
    rintro (e | e)
    · simp [hv] at e
    · exact hr e.2
  · exact .inr (.inr (.inl ⟨hi, h⟩))

/-- Everything an instruction can do. -/
theorem execIn_next {mode : OverflowMode} {i : Instr} {s t : State pcW} (h : execIn mode i s = .next t) :
    ExecEffect mode i s t := by
  cases i with
  | add a b =>
    cases h
    refine execEffect_binaryAlu nofun rfl fun ra rb ha hb => ?_
    rw [addResult_eq, resultLeavesByte_add ha hb]
    cases mode <;> simp
  | sub a b =>
    cases h
    refine execEffect_binaryAlu nofun rfl fun ra rb ha hb => ?_
    rw [subResult_eq, resultLeavesByte_sub ha hb]
    cases mode <;> simp
  | and a b =>
    cases h
    exact execEffect_binaryAlu nofun rfl fun _ _ _ _ => by simp [not_resultLeavesByte]
  | or a b =>
    cases h
    exact execEffect_binaryAlu nofun rfl fun _ _ _ _ => by simp [not_resultLeavesByte]
  | xor a b =>
    cases h
    exact execEffect_binaryAlu nofun rfl fun _ _ _ _ => by simp [not_resultLeavesByte]
  | hlt =>
    cases h
    exact .inr (.inl ⟨rfl, rfl⟩)
  | ld a v =>
    cases h
    refine execEffect_plain nofun (not_resultLeavesByte (by simp) (by simp) s) ?_
    have hv := regsValid_one (i := .ld a v) rfl
    rcases withReg_cases a s (fun r => s.writeReg r v) with ⟨r, ha, e⟩ | ⟨ha, e⟩
    · exact .inl ⟨by simpa [ha] using mt hv.1 (by omega), .inl ⟨_, _, e⟩⟩
    · exact .inr ⟨hv.2 ha, e⟩
  | lda a b =>
    cases h
    refine execEffect_plain nofun (not_resultLeavesByte (by simp) (by simp) s) ?_
    have hv := regsValid_two (i := .lda a b) rfl
    rcases withRegs_cases a b s (fun rd rs => s.writeReg rd (s.reg rs)) with ⟨r, k, ha, hb, e⟩ | ⟨ha, e⟩
    · exact .inl ⟨by simpa using mt hv.1 (by omega), .inl ⟨_, _, e⟩⟩
    · exact .inr ⟨hv.2 ha, e⟩
  | out a =>
    cases h
    refine execEffect_plain nofun (not_resultLeavesByte (by simp) (by simp) s) ?_
    have hv := regsValid_one (i := .out a) rfl
    rcases withReg_cases a s (fun r => s.emit (s.reg r)) with ⟨r, ha, e⟩ | ⟨ha, e⟩
    · exact .inl ⟨by simpa using mt hv.1 (by omega), .inr ⟨a, r, rfl, ha, e⟩⟩
    · exact .inr ⟨hv.2 ha, e⟩
  | not a =>
    cases h
    refine execEffect_plain nofun (not_resultLeavesByte (by simp) (by simp) s) ?_
    have hv := regsValid_one (i := .not a) rfl
    rcases withReg_cases a s (fun r => s.writeReg 0 (if s.reg r = 0 then 1 else 0)) with
      ⟨r, ha, e⟩ | ⟨ha, e⟩
    · exact .inl ⟨by simpa using mt hv.1 (by omega), .inl ⟨_, _, e⟩⟩
    · exact .inr ⟨hv.2 ha, e⟩

/-- Every instruction answers a next state (R94, R191). -/
theorem execIn_total (mode : OverflowMode) (i : Instr) (s : State pcW) :
    ∃ t, execIn mode i s = .next t := by
  cases i <;> exact ⟨_, rfl⟩

/-! ## The step -/

theorem stepIn_core (s : State) : stepIn Config.core s = step s := by
  have h : execIn .fault = exec := by
    funext i s
    exact execIn_core i s
  simp [stepIn, step, h]

/-- Everything a step can answer (R90): which state it needs, and the three ways on. -/
theorem stepIn_next {cfg : Config} {s t : State cfg.pcW} (h : stepIn cfg s = .next t) :
    s.runState = .run ∧
      ((s.len ≤ s.pc ∧ t = s.halt) ∨
        (s.pc < s.len ∧ ∃ r, useAsInstr (s.cell s.pc) s.pc = .error r ∧ t = s.raise r.cause r.addr) ∨
        (s.pc < s.len ∧ ∃ i, decodeCell (s.cell s.pc) = .instr i ∧
          execIn cfg.overflowMode i s.advancePc = .next t)) := by
  unfold stepIn engineStep at h
  split at h
  · cases h
  · rename_i hr
    refine ⟨hr, ?_⟩
    unfold runningStep at h
    split at h
    · rename_i hle
      cases h
      exact .inl ⟨hle, rfl⟩
    · rename_i hle
      have hlt : s.pc < s.len := BitVec.not_le.1 hle
      rw [memFetch_of_lt hlt] at h
      rcases useAsInstr_cases (s.cell s.pc) s.pc with ⟨i, hd, hu⟩ | ⟨_, hu⟩ | ⟨_, _, hu⟩
      · rw [hu] at h
        exact .inr (.inr ⟨hlt, i, hd, h⟩)
      · rw [hu] at h
        cases h
        exact .inr (.inl ⟨hlt, _, hu, rfl⟩)
      · rw [hu] at h
        cases h
        exact .inr (.inl ⟨hlt, _, hu, rfl⟩)
  · cases h
  · cases h

/-- A running step at the end of memory halts (R91). -/
theorem stepIn_of_end {cfg : Config} {s : State cfg.pcW} (hr : s.runState = .run) (hp : s.len ≤ s.pc) :
    stepIn cfg s = .next s.halt := by
  simp [stepIn, engineStep, hr, runningStep, hp]

/-- A running step whose fetch raises faults (R92, R191). -/
theorem stepIn_of_error {cfg : Config} {s : State cfg.pcW} {r : Raise cfg.pcW} (hr : s.runState = .run)
    (hp : s.pc < s.len) (h : useAsInstr (s.cell s.pc) s.pc = .error r) :
    stepIn cfg s = .next (s.raise r.cause r.addr) := by
  have hle : ¬ s.len ≤ s.pc := BitVec.not_le.2 hp
  simp [stepIn, engineStep, hr, runningStep, hle, memFetch_of_lt hp, h]

/-- A running step that fetches an instruction executes it after the increment (R92 to R94). -/
theorem stepIn_of_instr {cfg : Config} {s : State cfg.pcW} {i : Instr} (hr : s.runState = .run)
    (hp : s.pc < s.len) (hd : decodeCell (s.cell s.pc) = .instr i) :
    stepIn cfg s = execIn cfg.overflowMode i s.advancePc := by
  have hle : ¬ s.len ≤ s.pc := BitVec.not_le.2 hp
  simp [stepIn, engineStep, hr, runningStep, hle, memFetch_of_lt hp, useAsInstr_of_instr hd]

/-! ## Runs -/

/-- A run of one more step, when the first step answers a next state. -/
theorem run_succ {M : Host.Core} {k : Nat} {s t : M.State} (h : M.step s = .next t) :
    M.run (k + 1) s = M.run k t := by
  simp [Host.Core.run, h]

/-- A run of one more step that answers a next state: its first step did. -/
theorem run_succ_next {M : Host.Core} {k : Nat} {s t : M.State} (h : M.run (k + 1) s = .next t) :
    ∃ u, M.step s = .next u ∧ M.run k u = .next t := by
  cases e : M.step s with
  | next u => exact ⟨u, rfl, (run_succ e).symm.trans h⟩
  | fault r => simp [Host.Core.run, e] at h
  | refused r => simp [Host.Core.run, e] at h

/-- A run of the machine the host runs is a run at the configuration of this hardware. -/
theorem core_run_eq (k : Nat) (s : State) :
    Sys2Proof.core.run k s = (coreIn Config.core).run k s := by
  have h : step = stepIn Config.core := funext fun s => (stepIn_core s).symm
  show Host.Core.run ⟨State, Fault, Refusal, step, State.reset⟩ k s =
    Host.Core.run ⟨State, Fault, Refusal, stepIn Config.core, State.reset⟩ k s
  rw [h]

end Sys2Proof.Machine
end

