-- ==== Sys2Proof/Laws/HostOps.lean ====
section
/-! SUPPORT. What the memory primitives and the host operations can do: when they raise, with which
cause, and one rule that carries a property through every host operation. -/

namespace Sys2Proof.Machine

variable {pcW : Nat}

/-! ## Addresses that do not wrap -/

theorem one_toNat (h : 1 < 2 ^ pcW) : (1 : BitVec pcW).toNat = 1 := by
  show 1 % 2 ^ pcW = 1
  exact Nat.mod_eq_of_lt h

theorem succ_toNat {a : BitVec pcW} {n : Nat} (h : a.toNat < n) (hn : n < 2 ^ pcW) :
    (a + 1).toNat = a.toNat + 1 := by
  have h1 := one_toNat (pcW := pcW) (by omega)
  rw [BitVec.toNat_add, h1]
  exact Nat.mod_eq_of_lt (by omega)

theorem pc_succ_toNat {s : State pcW} (h : s.pc < s.len) : (s.pc + 1).toNat = s.pc.toNat + 1 :=
  succ_toNat (BitVec.lt_def.1 h) s.len.isLt

theorem len_succ_toNat {cfg : Config} {s : State cfg.pcW} (h : s.len.toNat < cfg.memCells) :
    (s.len + 1).toNat = s.len.toNat + 1 :=
  succ_toNat h cfg.memCells_lt

theorem len_pred_toNat {s : State pcW} (h : s.len ≠ 0) : (s.len - 1).toNat + 1 = s.len.toNat := by
  have h0 : s.len.toNat ≠ 0 := fun e => h (BitVec.eq_of_toNat_eq (by simpa using e))
  have hl := s.len.isLt
  have h1 := one_toNat (pcW := pcW) (by omega)
  rw [BitVec.toNat_sub, h1, show 2 ^ pcW - 1 + s.len.toNat =
    s.len.toNat - 1 + 2 ^ pcW by omega, Nat.add_mod_right, Nat.mod_eq_of_lt (by omega)]
  omega

/-! ## The append -/

theorem memAppend_of_lt {cfg : Config} {s : State cfg.pcW} (h : s.len.toNat < cfg.memCells) (w : CellWord) :
    memAppend cfg w s = .ok ((s.setCell s.len w).setLen (s.len + 1)) := by
  simp [memAppend, Nat.ne_of_lt h]

theorem memAppend_of_full {cfg : Config} {s : State cfg.pcW} (h : s.len.toNat = cfg.memCells) (w : CellWord) :
    memAppend cfg w s = .error ⟨.memoryCapacityExceeded, s.len⟩ := by
  simp [memAppend, h]

/-! ## Causes -/

/-- The causes a host operation can raise (R181). -/
def FaultCause.ofMemory (c : FaultCause) : Prop :=
  c = .memoryTypeViolation ∨ c = .memoryRangeViolation ∨ c = .illegalEncoding ∨
    c = .memoryCapacityExceeded

theorem useAsInstr_error {w : CellWord} {a : BitVec pcW} {r : Raise pcW} (h : useAsInstr w a = .error r) :
    (∀ i, decodeCell w ≠ .instr i) ∧ r.addr = a ∧
      (r.cause = .memoryTypeViolation ∨ r.cause = .illegalEncoding) := by
  refine ⟨fun i e => ?_, ?_⟩
  · rw [useAsInstr_of_instr e] at h
    cases h
  · rcases useAsInstr_cases w a with ⟨_, _, e⟩ | ⟨_, e⟩ | ⟨_, _, e⟩ <;> rw [e] at h <;> cases h <;> simp

theorem memFetch_error {a : BitVec pcW} {s : State pcW} {r : Raise pcW} (h : memFetch a s = .error r) :
    r.cause.ofMemory := by
  unfold memFetch at h
  split at h
  · cases h
    exact .inr (.inl rfl)
  · rcases (useAsInstr_error h).2.2 with e | e
    · exact .inl e
    · exact .inr (.inr (.inl e))

theorem memPop_error {s : State pcW} {r : Raise pcW} (h : memPop s = .error r) : r.cause.ofMemory := by
  unfold memPop at h
  split at h
  · cases h
    exact .inr (.inl rfl)
  · split at h
    · cases h
    · rename_i e
      cases h
      rcases (useAsInstr_error e).2.2 with e | e
      · exact .inl e
      · exact .inr (.inr (.inl e))

theorem memRead_error {a : BitVec pcW} {s : State pcW} {r : Raise pcW} (h : memRead a s = .error r) :
    r.cause.ofMemory := by
  unfold memRead at h
  split at h
  · cases h
    exact .inr (.inl rfl)
  · split at h
    · cases h
      exact .inl rfl
    · split at h
      · cases h
      · cases h
        exact .inr (.inr (.inl rfl))

theorem memWrite_error {a : BitVec pcW} {v : Byte} {s : State pcW} {r : Raise pcW} (h : memWrite a v s = .error r) :
    r.cause.ofMemory := by
  unfold memWrite at h
  split at h
  · cases h
    exact .inr (.inl rfl)
  · cases h

theorem memAppend_error {cfg : Config} {w : CellWord} {s : State cfg.pcW} {r : Raise cfg.pcW}
    (h : memAppend cfg w s = .error r) : r.cause.ofMemory := by
  unfold memAppend at h
  split at h
  · cases h
    exact .inr (.inr (.inr rfl))
  · cases h

/-! ## The host operations -/

theorem hostStepIn_of_load {cfg : Config} {s : State cfg.pcW} (h : s.runState = .load)
    (op : HostOp cfg.pcW) :
    hostStepIn cfg op s = hostInLoad cfg op s := by
  cases op <;> simp [hostStepIn, hostInLoad, h]

/-- Outside LOAD no operation but H_RESET leaves a state (R150). -/
theorem load_of_hostStepIn {cfg : Config} {op : HostOp cfg.pcW} {s t : State cfg.pcW} (ho : op ≠ .reset)
    (h : (hostStepIn cfg op s).state? = some t) : s.runState = .load := by
  unfold hostStepIn at h
  split at h
  · exact absurd rfl ho
  · assumption
  · cases h

/-- A property that the three memory updates keep, and that leads to another one at a start, at an end
and at a fault, is carried through every host operation but H_RESET. -/
theorem hostStepIn_rule {cfg : Config} {P Q : State cfg.pcW → Prop}
    (append : ∀ s w t, P s → memAppend cfg w s = .ok t → P t)
    (pop : ∀ s i t, P s → memPop s = .ok (t, i) → P t)
    (write : ∀ s a v t, P s → memWrite a v s = .ok t → P t)
    (start : ∀ s, P s → Q s.start)
    (stay : ∀ s, P s → Q s)
    (raise : ∀ s c a, P s → c.ofMemory → Q (s.raise c a))
    {op : HostOp cfg.pcW} {s t : State cfg.pcW} (ho : op ≠ .reset) (hl : s.runState = .load) (hP : P s)
    (h : (hostStepIn cfg op s).state? = some t) : Q t := by
  rw [hostStepIn_of_load hl] at h
  cases op with
  | reset => exact absurd rfl ho
  | load bytes =>
    simp only [hostInLoad] at h
    clear hl ho
    induction bytes generalizing s with
    | nil =>
      cases h
      exact stay _ hP
    | cons v r ih =>
      simp only [hostLoad] at h
      split at h
      · rename_i e
        exact ih (append _ _ _ hP e) h
      · rename_i e
        cases h
        exact raise _ _ _ hP (memAppend_error e)
  | push i =>
    simp only [hostInLoad, hostPush] at h
    split at h <;> rename_i e <;> cases h
    · exact stay _ (append _ _ _ hP e)
    · exact raise _ _ _ hP (memAppend_error e)
  | pop =>
    simp only [hostInLoad, hostPop] at h
    split at h <;> rename_i e <;> cases h
    · exact stay _ (pop _ _ _ hP e)
    · exact raise _ _ _ hP (memPop_error e)
  | read a =>
    simp only [hostInLoad, hostRead] at h
    split at h <;> rename_i e <;> cases h
    · exact stay _ hP
    · exact raise _ _ _ hP (memRead_error e)
  | write a v =>
    simp only [hostInLoad, hostWrite] at h
    split at h <;> rename_i e <;> cases h
    · exact stay _ (write _ _ _ _ hP e)
    · exact raise _ _ _ hP (memWrite_error e)
  | len =>
    cases h
    exact stay _ hP
  | fetch a =>
    simp only [hostInLoad, hostFetch] at h
    split at h <;> rename_i e <;> cases h
    · exact stay _ hP
    · exact raise _ _ _ hP (memFetch_error e)
  | start =>
    cases h
    exact start _ hP

end Sys2Proof.Machine
end

