-- ==== Sys2Proof/Laws/PerInstr.lean ====
section
/-! SUPPORT. A statement about the encoding of each instruction: TAG is set, RSV is zero, OPC is the
number of 30_encoding.md R64, A and B hold the operands of R65. -/

namespace Sys2Proof.Laws.EncodedFields

/-- The fields of an instruction's word (R61, R63 to R65). -/
def Statement (i : Instr) : Prop :=
  tagOf (encode i) = true ∧ rsvOf (encode i) = 0#3 ∧ opcOf (encode i) = i.opcode ∧
    fieldA (encode i) = i.operandA ∧ fieldB (encode i) = i.operandB

theorem add (a b : Byte) : Statement (.add a b) :=
  ⟨wordOfBody_tag _, wordOfBody_rsv _, encode_opc _, encode_fieldA _, encode_fieldB _⟩
theorem sub (a b : Byte) : Statement (.sub a b) :=
  ⟨wordOfBody_tag _, wordOfBody_rsv _, encode_opc _, encode_fieldA _, encode_fieldB _⟩
theorem ld (a v : Byte) : Statement (.ld a v) :=
  ⟨wordOfBody_tag _, wordOfBody_rsv _, encode_opc _, encode_fieldA _, encode_fieldB _⟩
theorem lda (a b : Byte) : Statement (.lda a b) :=
  ⟨wordOfBody_tag _, wordOfBody_rsv _, encode_opc _, encode_fieldA _, encode_fieldB _⟩
theorem and (a b : Byte) : Statement (.and a b) :=
  ⟨wordOfBody_tag _, wordOfBody_rsv _, encode_opc _, encode_fieldA _, encode_fieldB _⟩
theorem or (a b : Byte) : Statement (.or a b) :=
  ⟨wordOfBody_tag _, wordOfBody_rsv _, encode_opc _, encode_fieldA _, encode_fieldB _⟩
theorem xor (a b : Byte) : Statement (.xor a b) :=
  ⟨wordOfBody_tag _, wordOfBody_rsv _, encode_opc _, encode_fieldA _, encode_fieldB _⟩
theorem out (a : Byte) : Statement (.out a) :=
  ⟨wordOfBody_tag _, wordOfBody_rsv _, encode_opc _, encode_fieldA _, encode_fieldB _⟩
theorem not (a : Byte) : Statement (.not a) :=
  ⟨wordOfBody_tag _, wordOfBody_rsv _, encode_opc _, encode_fieldA _, encode_fieldB _⟩
theorem hlt : Statement .hlt :=
  ⟨wordOfBody_tag _, wordOfBody_rsv _, encode_opc _, encode_fieldA _, encode_fieldB _⟩

end Sys2Proof.Laws.EncodedFields
end

