-- ==== Sys2Proof/Tests/Slice0.lean ====
section
/-! SUPPORT. The model's own tests. Expected values come from 95_test_vectors.md (named section by
section) or are worked out by hand from the rule named; each test is one step or one operation on a
small state. The second half shows that the hypotheses of each statement can be met. -/

namespace Sys2Proof.Tests

open Sys2Proof.Machine

variable {pcW : Nat}

/-- The cells of a list at addresses from `a` up. -/
def cellsFrom (a : Nat) : List CellWord → Memory
  | [] => []
  | w :: rest => Memory.write a w (cellsFrom (a + 1) rest)

/-- A state with three registers set, a pc, cells from address 0 and a run state. -/
def demo (r0 r1 r2 : Byte) (pc : PcWord Config.core) (cells : List CellWord) (rs : RunState) :
    State :=
  { regs := #v[r0, r1, r2, 0, 0, 0, 0, 0]
    pc := pc
    mem := cellsFrom 0 cells
    len := BitVec.ofNat _ cells.length
    runState := rs
    faultCause := .none
    faultAddr := 0
    outlog := [] }

/-- Some part of the next state a step answers. -/
def seen {α : Type} (r : StepResult pcW) (f : State pcW → α) : Option α :=
  match r with
  | .next t => some (f t)
  | .fault _ => none
  | .refused _ => none

/-- Some part of the state a host operation leaves, with what it returned. -/
def told {α : Type} (r : HostReply pcW) (f : State pcW → α) :
    Option (α × Option (HostValue pcW)) :=
  match r with
  | .done t v => some (f t, some v)
  | .raised t => some (f t, none)
  | .noMove => none

/-- The fault status. -/
def status (s : State pcW) : BitVec 2 × BitVec 3 × BitVec pcW :=
  (s.runState.code, s.faultCause.code, s.faultAddr)

/-- A step from address 0 on one cell, the registers given. -/
def one (r0 r1 r2 : Byte) (w : CellWord) : StepResult Config.core.pcW := step (demo r0 r1 r2 0 [w] .run)

/-! ## Well-formedness: one ill-formed term for each check -/

theorem test_rsv_refused : wordRsvZero 0x900000#24 = false := by decide
theorem test_high_refused : wordHighZero 0x000100#24 = false := by decide
theorem test_opc_refused : wordOpcAssigned 0x8A0000#24 = false := by decide
theorem test_unused_out_refused : wordUnusedZero 0x870301#24 = false := by decide
theorem test_unused_not_refused : wordUnusedZero 0x880001#24 = false := by decide
theorem test_unused_hlt_refused : wordUnusedZero 0x890100#24 = false := by decide
theorem test_bad_words_refused :
    ([0x8A0000, 0x8F1234, 0x870301, 0x880001, 0x890100, 0x900000, 0x000100, 0x100000].all
      fun w : CellWord => !wordWellFormed w) = true := by decide
theorem test_good_words_pass :
    ([0x00002A, 0x800909, 0x82FFFF, 0x870700, 0x880300, 0x890000].all
      fun w : CellWord => wordWellFormed w) = true := by decide
theorem test_regs_refused : (Instr.add 9 9).regsValid = false ∧ (Instr.ld 7 255).regsValid = true := by
  decide
theorem test_config_refused : ¬ Config.WF ⟨0, .fault⟩ ∧ Config.WF ⟨1, .wrap⟩ ∧ Config.core.WF := by
  decide
/-- 00_scope.md R4: 100 cells need 7 bits to hold 100 and 7 bits to address; 4096 cells need 13 and 12;
one cell needs 1 and 0. -/
theorem test_widths :
    (Config.pcW ⟨100, .fault⟩ = 7 ∧ Config.addrW ⟨100, .fault⟩ = 7) ∧
    (Config.pcW ⟨4096, .fault⟩ = 13 ∧ Config.addrW ⟨4096, .fault⟩ = 12) ∧
    (Config.pcW ⟨1, .fault⟩ = 1 ∧ Config.addrW ⟨1, .fault⟩ = 0) := by decide

/-! ## Decoding: the words of 95_test_vectors.md 2.1 and 2.2, written out by the spec -/

theorem test_decode_add : decodeCell 0b100000000000000100000010#24 = .instr (.add 1 2) := by decide
theorem test_decode_sub : decodeCell 0b100000010000011100000000#24 = .instr (.sub 7 0) := by decide
theorem test_decode_ld : decodeCell 0b100000100000011111111111#24 = .instr (.ld 7 255) := by decide
theorem test_decode_lda : decodeCell 0b100000110000001100000000#24 = .instr (.lda 3 0) := by decide
theorem test_decode_and : decodeCell 0b100001000000000100000010#24 = .instr (.and 1 2) := by decide
theorem test_decode_or : decodeCell 0b100001010000000100000010#24 = .instr (.or 1 2) := by decide
theorem test_decode_xor : decodeCell 0b100001100000000100000010#24 = .instr (.xor 1 2) := by decide
theorem test_decode_out : decodeCell 0b100001110000011100000000#24 = .instr (.out 7) := by decide
theorem test_decode_not : decodeCell 0b100010000000001100000000#24 = .instr (.not 3) := by decide
theorem test_decode_hlt : decodeCell 0b100010010000000000000000#24 = .instr .hlt := by decide
theorem test_decode_bad_index : decodeCell 0x800909#24 = .instr (.add 9 9) := by decide
theorem test_decode_data : decodeCell 0x0000FF#24 = .data 255 := by decide
theorem test_decode_unassigned :
    decodeCell 0x8F1234#24 = .invalid 0x8F1234#24 .unassignedOpcode := by decide
theorem test_decode_reserved :
    decodeCell 0x900000#24 = .invalid 0x900000#24 .reservedNonZero := by decide
theorem test_decode_data_high :
    decodeCell 0x100000#24 = .invalid 0x100000#24 .dataBitsNonZero := by decide
theorem test_encode :
    encode (.ld 1 5) = 0x820105#24 ∧ encode (.out 3) = 0x870300#24 ∧ encode .hlt = 0x890000#24 ∧
      wordOfData 42 = 0x00002A#24 := by decide
theorem test_table_word :
    decodeTableWord 24 0x810102 = some (.sub 1 2) ∧ decodeTableWord 24 0x8A0000 = none := by decide

/-! ## Instructions: 95_test_vectors.md section 3 -/

theorem test_add_3_1 : seen (one 0 127 128 0x800102) (fun t => (t.reg 0, t.pc)) = some (255, 1) := by
  decide
/-- Both columns of 3.1: `fault`, then `wrap`. -/
theorem test_add_overflows : seen (one 9 255 1 0x800102) (fun t => (t.reg 0, t.pc, status t)) =
      some (9, 1, 3, 3, 0) ∧
    seen (execIn .wrap (.add 1 2) (demo 0 200 100 1 [] .run)) (fun t => t.reg 0) = some 44 := by
  decide
theorem test_sub_3_2 : seen (one 0 10 3 0x810102) (fun t => t.reg 0) = some 7 := by decide
/-- Both columns of 3.2: `fault`, then `wrap`. -/
theorem test_sub_underflows : seen (one 9 3 5 0x810102) (fun t => (t.reg 0, status t)) =
      some (9, 3, 3, 0) ∧
    seen (execIn .wrap (.sub 1 2) (demo 0 3 5 1 [] .run)) (fun t => t.reg 0) = some 254 := by
  decide
theorem test_and_3_3 : seen (one 0 204 170 0x840102) (fun t => t.reg 0) = some 136 := by decide
theorem test_and_bad_index : seen (one 7 1 1 0x840108) (fun t => (t.reg 0, status t)) =
    some (7, 3, 2, 0) := by decide
theorem test_or_3_3 : seen (one 0 129 24 0x850102) (fun t => t.reg 0) = some 153 := by decide
theorem test_xor_3_3 : seen (one 0 204 170 0x860102) (fun t => t.reg 0) = some 102 := by decide
theorem test_xor_same : seen (one 0 204 0 0x860101) (fun t => (t.reg 0, t.reg 1)) = some (0, 204) := by
  decide
theorem test_not_255 : seen (one 9 255 0 0x880100) (fun t => (t.reg 0, t.reg 1)) = some (0, 255) := by
  decide
theorem test_not_zero : seen (one 0 0 0 0x880000) (fun t => t.reg 0) = some 1 := by decide
theorem test_ld_3_5 : seen (one 0 0 0 0x820708) (fun t => t.reg 7) = some 8 := by decide
theorem test_ld_bad_index : seen (one 1 2 3 0x820801) (fun t => (t.regs, status t)) =
    some (#v[1, 2, 3, 0, 0, 0, 0, 0], 3, 2, 0) := by decide
theorem test_lda_3_5 : seen (one 0 0 77 0x830402) (fun t => (t.reg 4, t.reg 2)) = some (77, 77) := by
  decide
theorem test_lda_bad_index : seen (one 0 6 0 0x830108) (fun t => (t.reg 1, status t)) =
    some (6, 3, 2, 0) := by decide
theorem test_out_3_6 : seen (one 8 0 0 0x870000) (fun t => (t.outlog, t.reg 0)) = some ([8], 8) := by
  decide
theorem test_out_bad_index : seen (one 8 0 0 0x870800) (fun t => (t.outlog, status t)) =
    some ([], 3, 2, 0) := by decide
theorem test_hlt_3_6 : seen (one 8 0 0 0x890000) (fun t => (t.pc, status t, t.regs)) =
    some (1, (2, 0, 0), #v[8, 0, 0, 0, 0, 0, 0, 0]) := by decide
/-! ## The step: 95_test_vectors.md 2.2, P6, P9; 40_fetch_execute.md R91 -/

theorem test_fetch_bad_word : seen (one 0 0 0 0x8A0000) (fun t => (t.pc, status t)) =
    some (0, 3, 5, 0) := by decide
theorem test_fetch_tag_first : seen (one 0 0 0 0x000100) (fun t => (t.pc, status t)) =
    some (0, 3, 1, 0) := by decide
theorem test_fetch_data_p6 : seen (step (demo 0 7 0 2 [0x820107, 0x870100, 0x00002A] .run))
    (fun t => (t.pc, status t)) = some (2, 3, 1, 2) := by decide
theorem test_end_of_memory_p9 : seen (step (demo 0 0 0 0 [] .run)) (fun t => (t.pc, status t)) =
    some (0, 2, 0, 0) := by decide
theorem test_no_step_in_load : seen (step State.reset) (fun t => t.pc) = none := by decide
theorem test_placed_word_runs :
    seen (step (State.reset.withFetchWord 24 0x820105)) (fun t => (t.reg 1, t.pc, t.runState)) =
      some (5, 1, .run) := by decide

/-! ## Host operations: 95_test_vectors.md 3.7 -/

/-- The state after reset and the operations given. -/
def built (ops : List (HostOp Config.core.pcW)) : State := (hostRun Config.core ops State.reset).getD State.reset

theorem test_push_len : told (hostStep .len (built [.push 0x20105])) (fun t => t.cell 0) =
    some (0x820105#24, some (.length 1)) := by decide
theorem test_push_fetch : told (hostStep (.fetch 0) (built [.push 0x20105])) status =
    some ((0, 0, 0), some (.instr (.ld 1 5))) := by decide
theorem test_fetch_range : told (hostStep (.fetch 1) (built [.push 0x20105])) status =
    some ((3, 4, 1), none) := by decide
theorem test_read_instr : told (hostStep (.read 0) (built [.push 0x20105])) status =
    some ((3, 1, 0), none) := by decide
theorem test_load_read : told (hostStep (.read 0) (built [.load [42]])) (fun t => t.len) =
    some (1, some (.byte 42)) := by decide
theorem test_load_three : (observe (built [.load [1, 2, 3]])).cells = [1, 2, 3] := by decide
theorem test_pop : told (hostStep .pop (built [.push 0x90000])) (fun t => (t.len, t.mem)) =
    some ((0, []), some (.instr .hlt)) := by decide
theorem test_pop_empty : told (hostStep .pop State.reset) status = some ((3, 4, 0), none) := by decide
theorem test_pop_data : told (hostStep .pop (built [.load [7]])) (fun t => (t.len, status t)) =
    some ((1, 3, 1, 0), none) := by decide
theorem test_write_retags : told (hostStep (.read 0) (built [.push 0x90000, .write 0 85]))
    (fun t => t.cell 0) = some (0x000055#24, some (.byte 85)) := by decide
theorem test_write_range : told (hostStep (.write 1 85) (built [.push 0x90000]))
    (fun t => (t.len, status t)) = some ((1, 3, 4, 1), none) := by decide
theorem test_push_full :
    told (hostStep (.push 0x90000) { State.reset with len := 2048 }) (fun t => (t.len, status t)) =
      some ((2048, 3, 6, 2048), none) := by decide
theorem test_push_unchecked : (built [.push 0xA0000]).cell 0 = 0x8A0000#24 := by decide
theorem test_start_twice : hostStep .start (built [.start]) = .noMove := by decide
theorem test_fault_then_start : told (hostStep .pop State.reset) (fun t => hostStep .start t) =
    some (.noMove, none) := by decide
theorem test_reset_in_run : hostStep .reset (built [.push 0x90000, .start]) = .done State.reset .unit := by
  decide
/-- 20_memory.md R34, R42 at 4096 cells: LEN counts up to MEM_CELLS itself, and only then is it full. -/
theorem test_large_memory :
    let cfg : Config := ⟨4096, .fault⟩
    let s : State cfg.pcW := { State.resetAt cfg.pcW with len := 4095 }
    told (hostStepIn cfg (.push 0x90000) s) (fun t => (t.len, status t)) =
      some ((4096, 0, 0, 0), some .unit) ∧
    told (hostStepIn cfg (.push 0x90000) { s with len := 4096 }) (fun t => (t.len, status t)) =
      some ((4096, 3, 6, 4096), none) := by decide
/-- 44_host_ops.md R160: the cell that holds Data(0) is seen, though no pair lists it. -/
theorem test_observe_blank : (observe (built [.load [0, 9]])).cells = [0, 9] ∧
    (built [.load [0, 9]]).mem = [(1, 9)] := by decide

/-! ## The hypotheses of the statements can be met -/

theorem witness_DecodeCellFollowsTheListing :
    (0x0000FF#24).toNat = 0 * 2 ^ 8 + 255 ∧ (0x7FFFFF#24).toNat = 32767 * 2 ^ 8 + 255 ∧
    (0x900000#24).toNat = 2 ^ 23 + 1 * 2 ^ 20 + 0 * 2 ^ 16 + 0 * 2 ^ 8 + 0 ∧
    (0x80FFFF#24).toNat = 2 ^ 23 + 0 * 2 ^ 20 + 0 * 2 ^ 16 + 255 * 2 ^ 8 + 255 ∧
    (0x81FF00#24).toNat = 2 ^ 23 + 0 * 2 ^ 20 + 1 * 2 ^ 16 + 255 * 2 ^ 8 + 0 ∧
    (0x8200FF#24).toNat = 2 ^ 23 + 0 * 2 ^ 20 + 2 * 2 ^ 16 + 0 * 2 ^ 8 + 255 ∧
    (0x830707#24).toNat = 2 ^ 23 + 0 * 2 ^ 20 + 3 * 2 ^ 16 + 7 * 2 ^ 8 + 7 ∧
    (0x840000#24).toNat = 2 ^ 23 + 0 * 2 ^ 20 + 4 * 2 ^ 16 + 0 * 2 ^ 8 + 0 ∧
    (0x850001#24).toNat = 2 ^ 23 + 0 * 2 ^ 20 + 5 * 2 ^ 16 + 0 * 2 ^ 8 + 1 ∧
    (0x860100#24).toNat = 2 ^ 23 + 0 * 2 ^ 20 + 6 * 2 ^ 16 + 1 * 2 ^ 8 + 0 ∧
    (0x87FF00#24).toNat = 2 ^ 23 + 0 * 2 ^ 20 + 7 * 2 ^ 16 + 255 * 2 ^ 8 + 0 ∧
    (0x870001#24).toNat = 2 ^ 23 + 0 * 2 ^ 20 + 7 * 2 ^ 16 + 0 * 2 ^ 8 + 1 ∧
    (0x88FF00#24).toNat = 2 ^ 23 + 0 * 2 ^ 20 + 8 * 2 ^ 16 + 255 * 2 ^ 8 + 0 ∧
    (0x880001#24).toNat = 2 ^ 23 + 0 * 2 ^ 20 + 8 * 2 ^ 16 + 0 * 2 ^ 8 + 1 ∧
    (0x890000#24).toNat = 2 ^ 23 + 0 * 2 ^ 20 + 9 * 2 ^ 16 + 0 * 2 ^ 8 + 0 ∧
    (0x890001#24).toNat = 2 ^ 23 + 0 * 2 ^ 20 + 9 * 2 ^ 16 + 0 * 2 ^ 8 + 1 ∧
    (0x890100#24).toNat = 2 ^ 23 + 0 * 2 ^ 20 + 9 * 2 ^ 16 + 1 * 2 ^ 8 + 0 ∧
    (0x8A0000#24).toNat = 2 ^ 23 + 0 * 2 ^ 20 + 10 * 2 ^ 16 + 0 * 2 ^ 8 + 0 := by decide

theorem witness_EncodedWordsAreTheTables :
    (0x8A0000 ≤ (0x8A0000#24).toNat ∧ (0x8A0000#24).toNat ≤ 0x8FFFFF) ∧
    (0x8A0000 ≤ (0x8FFFFF#24).toNat ∧ (0x8FFFFF#24).toNat ≤ 0x8FFFFF) := by decide

theorem witness_EncodeOfDecodeIsTheWord :
    decodeCell 0x82FFFF#24 = .instr (.ld 255 255) ∧ decodeCell 0x0000FF#24 = .data 255 := by decide

/-- ADD: the largest sum that fits, the smallest that does not, and an index just past the last register
in either place. -/
theorem witness_AddWritesTheSumOrFaults :
    ((1 : Byte).toNat = (1 : RegIdx).val ∧ (2 : Byte).toNat = (2 : RegIdx).val) ∧
    ((demo 0 254 1 1 [] .run).reg 1).toNat + ((demo 0 254 1 1 [] .run).reg 2).toNat ≤ 255 ∧
    255 < ((demo 0 255 1 1 [] .run).reg 1).toNat + ((demo 0 255 1 1 [] .run).reg 2).toNat ∧
    (7 < (8 : Byte).toNat ∨ 7 < (0 : Byte).toNat) ∧ (7 < (0 : Byte).toNat ∨ 7 < (255 : Byte).toNat) := by
  decide

theorem witness_SubWritesTheDifferenceOrFaults :
    ((7 : Byte).toNat = (7 : RegIdx).val ∧ (0 : Byte).toNat = (0 : RegIdx).val) ∧
    ((demo 0 5 5 1 [] .run).reg 2).toNat ≤ ((demo 0 5 5 1 [] .run).reg 1).toNat ∧
    ((demo 0 5 6 1 [] .run).reg 1).toNat < ((demo 0 5 6 1 [] .run).reg 2).toNat ∧
    (7 < (8 : Byte).toNat ∨ 7 < (7 : Byte).toNat) := by decide

/-- AND, OR, LDA: indices at the ends of the range; the fault clauses. -/
theorem witness_TwoRegisterStatements :
    ((0 : Byte).toNat = (0 : RegIdx).val ∧ (7 : Byte).toNat = (7 : RegIdx).val) ∧
    (7 < (8 : Byte).toNat ∨ 7 < (0 : Byte).toNat) ∧ (7 < (7 : Byte).toNat ∨ 7 < (8 : Byte).toNat) := by
  decide

/-- XOR: a register with itself, a register that holds 255. -/
theorem witness_XorWritesTheBitwiseXor :
    (1 : Byte).toNat = (1 : RegIdx).val ∧ (demo 0 1 255 1 [] .run).reg 2 = 255 := by decide

theorem witness_NotWritesTheTruthInversion :
    (1 : Byte).toNat = (1 : RegIdx).val ∧ (demo 0 0 0 1 [] .run).reg 1 = 0 ∧
    (demo 0 1 0 1 [] .run).reg 1 ≠ 0 ∧ (demo 0 255 0 1 [] .run).reg 1 ≠ 0 ∧ 7 < (8 : Byte).toNat := by
  decide

/-- LD and OUT: the last register and the first index past it. -/
theorem witness_OneRegisterStatements :
    (7 : Byte).toNat = (7 : RegIdx).val ∧ 7 < (8 : Byte).toNat := by decide

theorem witness_AluFrame :
    let s : State := demo 0 1 2 1 [] .run
    (∃ t, execIn .fault (.add 1 2) s = .next t) ∧ (∃ t, execIn .fault (.sub 1 2) s = .next t) ∧
    (∃ t, execIn .fault (.and 1 8) s = .next t) ∧ (∃ t, execIn .fault (.or 1 2) s = .next t) ∧
    (∃ t, execIn .fault (.xor 1 2) s = .next t) ∧ (∃ t, execIn .wrap (.not 1) s = .next t) :=
  ⟨⟨_, rfl⟩, ⟨_, rfl⟩, ⟨_, rfl⟩, ⟨_, rfl⟩, ⟨_, rfl⟩, ⟨_, rfl⟩⟩

theorem witness_OverflowFaultsOnlyOutsideTheByte :
    (∃ t, execIn .fault (.add 1 2) (demo 0 255 1 1 [] .run) = .next t ∧
      t.faultCause = .arithmeticOverflow) ∧
    (∃ t, execIn .fault (.sub 1 2) (demo 0 0 1 1 [] .run) = .next t ∧
      t.faultCause = .arithmeticOverflow) ∧
    (demo 0 255 1 1 [] .run).faultCause ≠ .arithmeticOverflow := by
  refine ⟨⟨_, rfl, ?_⟩, ⟨_, rfl, ?_⟩, ?_⟩ <;> decide

/-- An index above 7 and an ADD that leaves the byte fault; one that does not leave it does not. -/
theorem witness_InstructionStaysInRunUnlessHltOrFault :
    (Instr.out 8).regsValid = false ∧
    resultLeavesByte (.add 1 2) (demo 0 255 1 1 [] .run) ∧
    ¬ resultLeavesByte (.add 1 2) (demo 0 254 1 1 [] .run) :=
  ⟨by decide, (resultLeavesByte_add (a := 1) (b := 2) (ra := 1) (rb := 2) rfl rfl _).2 (by decide),
    mt (resultLeavesByte_add (a := 1) (b := 2) (ra := 1) (rb := 2) rfl rfl _).1 (by decide)⟩

theorem witness_FramesOfMoveAndOutput :
    (∃ t, exec (.ld 1 2) (demo 0 1 2 1 [] .run) = .next t) ∧
    (∃ t, exec (.lda 1 2) (demo 0 1 2 1 [] .run) = .next t) ∧
    (∃ t, exec (.out 1) (demo 0 1 2 1 [] .run) = .next t) ∧
    (∃ t, exec (.out 8) (demo 0 1 2 1 [] .run) = .next t) ∧
    (∃ t, exec .hlt (demo 0 1 2 1 [] .run) = .next t) :=
  ⟨⟨_, rfl⟩, ⟨_, rfl⟩, ⟨_, rfl⟩, ⟨_, rfl⟩, ⟨_, rfl⟩⟩

/-- A running state whose cells at 0 and 1 are LD 3 200 and OUT 3 (95_test_vectors.md S2). -/
def s2 : State := demo 0 0 0 0 [0x8203C8, 0x870300] .run

theorem witness_LoadThenOutEmitsTheLiteral :
    s2.runState = .run ∧ (3 : Byte).toNat < 8 ∧ s2.pc.toNat + 1 < s2.len.toNat ∧
    s2.cell s2.pc = encode (.ld 3 200) ∧ s2.cell (s2.pc + 1) = encode (.out 3) := by decide

theorem witness_StepStatements :
    (s2.runState = .run ∧ s2.pc < s2.len ∧ decodeCell (s2.cell s2.pc) = .instr (.ld 3 200)) ∧
    (s2.len ≤ (demo 0 0 0 2 [0x8203C8, 0x870300] .run).pc) ∧
    (let h := demo 0 0 0 0 [0x890000] .run; h.runState = .run ∧ h.pc < h.len ∧ h.cell h.pc = 0x890000#24) ∧
    (let d := demo 0 0 0 0 [0x0000FF] .run; d.pc < d.len ∧ tagOf (d.cell d.pc) = false) ∧
    (let b := demo 0 0 0 0 [0x8A0000] .run; b.pc < b.len ∧ tagOf (b.cell b.pc) = true ∧
      wordWellFormed (b.cell b.pc) = false) ∧
    (tagOf (s2.cell s2.pc) = true ∧ wordWellFormed (s2.cell s2.pc) = true) ∧
    (Instr.out 8).regsValid = false := by decide

/-- Steps of each kind: an instruction, the end of memory, a fetch fault, a fault in execution. -/
theorem witness_WholeStepStatements :
    (∃ t, step s2 = .next t) ∧
    (∃ t, stepIn Config.core (demo 0 0 0 1 [0x0] .run) = .next t ∧ t.runState = .halted) ∧
    (∃ t, step (demo 0 0 0 0 [0x000000] .run) = .next t ∧ t.runState = .fault) ∧
    (∃ t, step (demo 0 0 0 0 [0x870800] .run) = .next t ∧ t.runState = .fault) := by
  refine ⟨⟨_, rfl⟩, ⟨_, rfl, ?_⟩, ⟨_, rfl, ?_⟩, ⟨_, rfl, ?_⟩⟩ <;> decide

theorem witness_FaultIsLeftOnlyByReset :
    (demo 0 0 0 0 [] .fault).runState = .fault ∧ (HostOp.start : HostOp Config.core.pcW) ≠ .reset := by decide

/-- Host operations that append: room left, no room left, and bytes that fit in part. -/
theorem witness_AppendStatements :
    State.reset.runState = .load ∧ State.reset.len.toNat < Config.core.memCells ∧
    (let f : State := { State.reset with len := 2048 };
      f.runState = .load ∧ f.len.toNat = Config.core.memCells) ∧
    State.reset.len.toNat + [(1 : Byte)].length ≤ Config.core.memCells ∧
    (let cfg : Config := ⟨1, .fault⟩;
      ¬ (State.resetAt cfg.pcW).len.toNat + [(1 : Byte), 2].length ≤ cfg.memCells) := by decide

/-- One Instruction cell, one Data cell, one malformed word of each tag, in LOAD. -/
def mixed : State := demo 0 0 0 0 [0x890000, 0x00002A, 0x870301, 0x000100] .load

theorem witness_MemoryStatements :
    mixed.runState = .load ∧ State.reset.len = 0 ∧
    (mixed.len ≤ 4 ∧ 3 < mixed.len) ∧
    (tagOf (mixed.cell 0) = true ∧ decodeCell (mixed.cell 0) = .instr .hlt) ∧
    (tagOf (mixed.cell 1) = false ∧ decodeCell (mixed.cell 1) = .data 42) ∧
    (tagOf (mixed.cell 2) = true ∧ wordWellFormed (mixed.cell 2) = false) ∧
    (tagOf (mixed.cell 3) = false ∧ wordWellFormed (mixed.cell 3) = false) := by decide

theorem witness_PopRemovesTheLastInstruction :
    (let p := demo 0 0 0 0 [0x890000] .load;
      p.len ≠ 0 ∧ decodeCell (p.cell (p.len - 1)) = .instr .hlt) ∧
    (let p := demo 0 0 0 0 [0x00002A] .load; p.len ≠ 0 ∧ tagOf (p.cell (p.len - 1)) = false) ∧
    (let p := demo 0 0 0 0 [0x8A0000] .load; p.len ≠ 0 ∧ tagOf (p.cell (p.len - 1)) = true ∧
      wordWellFormed (p.cell (p.len - 1)) = false) := by decide

/-- A state in LOAD that meets the invariant, with two cells. -/
def image : State := { State.reset with mem := [(0, 0x820105#24), (1, 0x890000#24)], len := 2 }

theorem witness_invariant_load : image.Inv Config.core ∧ image.runState = .load :=
  ⟨⟨by decide, by decide, by decide, by decide, by decide, by decide, by decide⟩, rfl⟩

theorem witness_invariant_run : image.start.Inv Config.core ∧ image.start.runState = .run :=
  ⟨⟨by decide, by decide, by decide, by decide, by decide, by decide, by decide⟩, rfl⟩

theorem witness_PushThenPopRestoresTheState :
    ∃ t, hostStepIn Config.core (.push (Instr.out 1).body) image = .done t .unit := ⟨_, rfl⟩

theorem witness_HostStatements :
    ((HostOp.pop : HostOp Config.core.pcW) ≠ .reset ∧ ∃ t, (hostStepIn Config.core .pop image).state? = some t) ∧
    (∃ t, hostStepIn Config.core (.read 0) image = .raised t) ∧
    (∃ t, hostStepIn Config.core (.load [1, 2]) ⟨#v[0, 0, 0, 0, 0, 0, 0, 0], 0, [], 2047, .load, .none, 0, []⟩
      = .raised t) := ⟨⟨by decide, _, rfl⟩, ⟨_, rfl⟩, ⟨_, rfl⟩⟩

theorem witness_PushedProgramOccupiesItsLines :
    [Instr.ld 1 5, .hlt].length ≤ Config.core.memCells ∧
    [Instr.ld 1 5, .hlt][1]? = some .hlt := by decide

theorem witness_CanonicalMemoryIsUnique :
    Memory.wf [(0, 0x820105#24), (5, 0x890000#24)] ∧ ¬ Memory.wf [(5, 1#24), (0, 1#24)] ∧
    ¬ Memory.wf [(0, 0#24)] := by decide

theorem witness_StepKeepsTheRunStraight :
    (demo 0 0 0 0 [0x890000] .run).Straight ∧
    ∃ t, step (demo 0 0 0 0 [0x890000] .run) = .next t :=
  ⟨fun a h => absurd h (Nat.not_lt_zero a), _, rfl⟩

theorem witness_reachable_run : Reachable Config.core (built [.push 0x90000, .start]) :=
  .host (s := built [.push 0x90000]) (.host .reset (.push 0x90000) rfl) .start rfl

/-- Both ways of halting from a reachable state: at an HLT, and off the end of an empty memory. -/
theorem witness_HaltByHltIsReadFromTheLastCell :
    (∃ t, stepIn Config.core (built [.push 0x90000, .start]) = .next t ∧ t.runState = .halted) ∧
    Reachable Config.core (built [.start]) ∧
    (∃ t, stepIn Config.core (built [.start]) = .next t ∧ t.runState = .halted) :=
  ⟨⟨_, rfl, by decide⟩, .host .reset .start rfl, _, rfl, by decide⟩

/-- The two sides of the condition, at one running state: a cell OUT 7 and the end of memory, from which
one instruction is executed; and a state whose next instruction is an ADD that leaves the byte. -/
theorem witness_FaultFreeProgramsHalt :
    let s : State := demo 0 0 0 0 [0x870700] .run
    let u : State := demo 0 200 100 0 [0x800102] .run
    (s.runState = .run ∧ ∃ t, (coreIn Config.core).run 2 s = .next t ∧ t.runState = .halted) ∧
    (s.pc < s.len ∧ decodeCell (s.cell s.pc) = .instr (.out 7) ∧ (Instr.out 7).regsValid = true) ∧
    u.runState = .run ∧ u.pc < u.len ∧ decodeCell (u.cell u.pc) = .instr (.add 1 2) :=
  ⟨⟨rfl, _, rfl, by decide⟩, by decide, by decide⟩

/-- Two running states that agree and are not the same: other traces, another fault status, another word
listed at LEN. -/
theorem witness_AgreeingStatesStepAlike :
    let s1 : State := image.start
    let s2 : State := { image.start with
      mem := [(0, 0x820105#24), (1, 0x890000#24), (2, 0x00002A#24)], outlog := [9],
      faultCause := .illegalEncoding }
    s1.Agrees s2 ∧ s1 ≠ s2 ∧ s1.runState = .run :=
  ⟨⟨rfl, rfl, rfl, rfl, by decide, by decide⟩, by decide, rfl⟩

theorem witness_RunDependsOnTheImageAlone :
    image.Inv Config.core ∧ ∃ t, hostStepIn Config.core .start image = .done t .unit :=
  ⟨witness_invariant_load.1, _, rfl⟩

/-- Running states of two widths with the same registers. -/
theorem witness_ExecutionSeesTheRegistersAlone :
    let s1 : State 12 := (State.resetAt 12).start
    let s2 : State 13 := { (State.resetAt 13).start with pc := 4096, len := 4096 }
    s1.regs = s2.regs ∧ s1.runState = .run ∧ s2.runState = .run := ⟨rfl, rfl, rfl⟩

/-- Capacities at which the widths change. -/
theorem witness_WidthsFollowTheCapacity :
    Config.WF ⟨1, .fault⟩ ∧ Config.WF ⟨4096, .wrap⟩ ∧ image.Inv Config.core ∧ 1 < image.len.toNat :=
  ⟨by decide, by decide, witness_invariant_load.1, by decide⟩

end Sys2Proof.Tests
end

/-! PROOFS. The memory family (20_memory.md, 44_host_ops.md): what the decoder says of a well-formed word,
what each memory primitive answers in each of its cases, how a host operation passes that answer on, and
from these the statements about H_PUSH, H_POP, H_READ and H_WRITE. -/

namespace Sys2Proof

/-! ## The decoder and well-formedness (R61, R67, R69, R70) -/

@[simp] theorem decodeCell_wordOfData (v : Byte) : decodeCell (wordOfData v) = .data v := by
  simp [decodeCell, wordOfData_tag, wordOfData_high, wordOfData_byte]

/-- A tagged word never decodes to a Data cell. -/
theorem decodeInstr_ne_data (w : CellWord) (v : Byte) : decodeInstr w ≠ .data v := by
  unfold decodeInstr
  (repeat' split) <;> nofun

/-- A word decodes to a Data cell exactly when its tag and its bits 22:8 are zero. -/
theorem decodeCell_eq_data_iff {w : CellWord} {v : Byte} :
    decodeCell w = .data v ↔ tagOf w = false ∧ dataHigh w = 0#15 ∧ fieldB w = v := by
  unfold decodeCell
  cases tagOf w with
  | true =>
    by_cases hr : rsvOf w = 0#3
    · simp [hr, decodeInstr_ne_data]
    · simp [hr]
  | false =>
    by_cases hh : dataHigh w = 0#15
    · simp [hh]
    · simp [hh]

theorem wordIsInstr_eq_tagOf (w : CellWord) : wordIsInstr w = tagOf w := by
  have hw := w.isLt
  rw [wordIsInstr, tagOf_eq, Nat.mod_eq_of_lt (by omega)]
  rfl

/-- Without the tag, a word is well formed exactly when its bits 22:8 are zero. -/
theorem wordWellFormed_of_untagged {w : CellWord} (ht : tagOf w = false) :
    wordWellFormed w = true ↔ dataHigh w = 0#15 := by
  rw [wordWellFormed, wordIsInstr_eq_tagOf, ht, dataHigh_eq_zero]
  simp only [wordRsvZero, wordHighZero, Bool.false_eq_true, if_false, Bool.and_eq_true, beq_iff_eq]
  omega

/-- A word with a condition on its unused fields is an instruction exactly when the condition holds. -/
theorem exists_ite_eq_instr {p : Prop} [Decidable p] (i : Instr) (w : CellWord) (why : BadWord) :
    (∃ j, (if p then DecodedCell.instr i else .invalid w why) = .instr j) ↔ p := by
  by_cases h : p <;> simp [h]

/-- After the RSV check the decoder asks what the layout asks: an assigned OPC, its unused fields zero. -/
theorem exists_decodeInstr_iff (w : CellWord) :
    (∃ i, decodeInstr w = .instr i) ↔ (wordOpcAssigned w && wordUnusedZero w) = true := by
  have hA : fieldA w = 0#8 ↔ w.toNat / 2 ^ 8 % 256 = 0 := fieldA_eq_ofNat w 0
  have hB : fieldB w = 0#8 ↔ w.toNat % 2 ^ 8 = 0 := fieldB_eq_ofNat w 0
  have hlt : w.toNat / 2 ^ 16 % 16 < 16 := Nat.mod_lt _ (by decide)
  unfold decodeInstr wordOpcAssigned wordUnusedZero
  rw [opcOf_toNat]
  generalize w.toNat / 2 ^ 16 % 16 = opc at hlt ⊢
  by_cases hopc : opc = 9
  · have hAB : (fieldA w = 0#8 ∧ fieldB w = 0#8) ↔ w.toNat % 2 ^ 16 = 0 := by rw [hA, hB]; omega
    simp [hopc, exists_ite_eq_instr, hAB]
  · interval_cases opc <;> simp [exists_ite_eq_instr, hB] at hopc ⊢

/-- With the tag, a word is well formed exactly when it decodes to an instruction. -/
theorem wordWellFormed_of_tagged {w : CellWord} (ht : tagOf w = true) :
    wordWellFormed w = true ↔ ∃ i, decodeCell w = .instr i := by
  rw [wordWellFormed, wordIsInstr_eq_tagOf, ht, decodeCell, if_pos ht]
  by_cases hr : rsvOf w = 0#3
  · have hz : wordRsvZero w = true := by simpa [wordRsvZero] using (rsvOf_eq_zero w).1 hr
    rw [if_pos hr, exists_decodeInstr_iff, hz]
    simp
  · have hz : wordRsvZero w = false := by simpa [wordRsvZero] using mt (rsvOf_eq_zero w).2 hr
    simp [hr, hz]

end Sys2Proof

namespace Sys2Proof.Machine

variable {pcW : Nat}

/-! ## A cell after a store -/

@[simp] theorem State.cell_setCell_same (a : BitVec pcW) (w : CellWord) (s : State pcW) :
    (s.setCell a w).cell a = w := Memory.read_write_same a.toNat w s.mem

/-! ## What each primitive answers (R36 to R41) -/

theorem useAsInstr_of_malformed {w : CellWord} (ht : tagOf w = true) (hw : wordWellFormed w = false)
    (a : BitVec pcW) : useAsInstr w a = .error ⟨.illegalEncoding, a⟩ :=
  useAsInstr_of_bad ht (fun i h => by simp [(wordWellFormed_of_tagged ht).2 ⟨i, h⟩] at hw) a

theorem memPop_of_empty {s : State pcW} (h : s.len = 0) :
    memPop s = .error ⟨.memoryRangeViolation, 0⟩ := if_pos h

theorem memPop_of_error {s : State pcW} {r : Raise pcW} (h : s.len ≠ 0)
    (hu : useAsInstr (s.cell (s.len - 1)) (s.len - 1) = .error r) : memPop s = .error r := by
  rw [memPop, if_neg h, hu]

theorem memPop_of_instr {s : State pcW} {i : Instr} (h : s.len ≠ 0)
    (hd : decodeCell (s.cell (s.len - 1)) = .instr i) :
    memPop s = .ok ((s.setCell (s.len - 1) blankCell).setLen (s.len - 1), i) := by
  rw [memPop, if_neg h, useAsInstr_of_instr hd]

section Access

variable {s : State pcW} {a : BitVec pcW}

theorem memRead_of_ge (h : s.len ≤ a) : memRead a s = .error ⟨.memoryRangeViolation, a⟩ := if_pos h

theorem memRead_of_tagged (h : a < s.len) (ht : tagOf (s.cell a) = true) :
    memRead a s = .error ⟨.memoryTypeViolation, a⟩ := by
  simp [memRead, BitVec.not_le.2 h, ht]

theorem memRead_of_malformed (h : a < s.len) (ht : tagOf (s.cell a) = false)
    (hw : wordWellFormed (s.cell a) = false) : memRead a s = .error ⟨.illegalEncoding, a⟩ := by
  have hh : dataHigh (s.cell a) ≠ 0#15 := fun e => by simp [(wordWellFormed_of_untagged ht).2 e] at hw
  simp [memRead, BitVec.not_le.2 h, ht, hh]

theorem memRead_of_data {v : Byte} (h : a < s.len) (hd : decodeCell (s.cell a) = .data v) :
    memRead a s = .ok v := by
  obtain ⟨ht, hh, hv⟩ := decodeCell_eq_data_iff.1 hd
  simp [memRead, BitVec.not_le.2 h, ht, hh, hv]

theorem memWrite_of_ge (h : s.len ≤ a) (v : Byte) :
    memWrite a v s = .error ⟨.memoryRangeViolation, a⟩ := if_pos h

theorem memWrite_of_lt (h : a < s.len) (v : Byte) :
    memWrite a v s = .ok (s.setCell a (wordOfData v)) := if_neg (BitVec.not_le.2 h)

/-- Fetching a Data cell is a type violation (C6). -/
theorem memFetch_of_untagged (h : a < s.len) (ht : tagOf (s.cell a) = false) :
    memFetch a s = .error ⟨.memoryTypeViolation, a⟩ :=
  (memFetch_of_lt h).trans (useAsInstr_of_data ht a)

end Access

/-! ## A host operation passes its primitive's answer on (R153 to R158, R161) -/

section HostAnswers

variable {s t : State pcW} {a : BitVec pcW} {v : Byte} {i : Instr} {r : Raise pcW}

theorem hostPush_of_ok {cfg : Config} {s t : State cfg.pcW} {b : Body}
    (h : memAppendInstr cfg b s = .ok t) : hostPush cfg b s = .done t .unit := by
  simp [hostPush, h]

theorem hostPush_of_error {cfg : Config} {s : State cfg.pcW} {b : Body} {r : Raise cfg.pcW}
    (h : memAppendInstr cfg b s = .error r) : hostPush cfg b s = .raised (s.raise r.cause r.addr) := by
  simp [hostPush, h]

theorem hostPop_of_ok (h : memPop s = .ok (t, i)) : hostPop s = .done t (.instr i) := by
  simp [hostPop, h]

theorem hostPop_of_error (h : memPop s = .error r) : hostPop s = .raised (s.raise r.cause r.addr) := by
  simp [hostPop, h]

theorem hostRead_of_ok (h : memRead a s = .ok v) : hostRead a s = .done s (.byte v) := by
  simp [hostRead, h]

theorem hostRead_of_error (h : memRead a s = .error r) :
    hostRead a s = .raised (s.raise r.cause r.addr) := by
  simp [hostRead, h]

theorem hostWrite_of_ok (h : memWrite a v s = .ok t) : hostWrite a v s = .done t .unit := by
  simp [hostWrite, h]

theorem hostWrite_of_error (h : memWrite a v s = .error r) :
    hostWrite a v s = .raised (s.raise r.cause r.addr) := by
  simp [hostWrite, h]

theorem hostFetch_of_error (h : memFetch a s = .error r) :
    hostFetch a s = .raised (s.raise r.cause r.addr) := by
  simp [hostFetch, h]

end HostAnswers

/-! ## The statements -/

/-- Settles O34: the append stores the body's word at LEN, and a read of any other address misses it. -/
theorem pushAppendsTheInstructionCell : Obligations.PushAppendsTheInstructionCell := by
  intro cfg s i hl
  simp only [hostStepIn_of_load hl, hostInLoad]
  refine ⟨fun hlt => ⟨_, hostPush_of_ok (memAppend_of_lt hlt _), len_succ_toNat hlt, ?_,
    fun a ha => Memory.read_write_other _ _ _ _ ha.symm, rfl⟩,
    fun hfull => hostPush_of_error (memAppend_of_full hfull _)⟩
  rw [State.setLen_cell, State.cell_setCell_same, wordOfBody_toNat]
  rfl

/-- Settles O36: the cell at LEN - 1 decides, used as an instruction; the cells below it are not stored to. -/
theorem popRemovesTheLastInstruction : Obligations.PopRemovesTheLastInstruction := by
  intro cfg s hl
  simp only [hostStepIn_of_load hl, hostInLoad]
  refine ⟨fun h0 => hostPop_of_error (memPop_of_empty h0),
    fun h0 ht => hostPop_of_error (memPop_of_error h0 (useAsInstr_of_data ht _)),
    fun h0 ht hw => hostPop_of_error (memPop_of_error h0 (useAsInstr_of_malformed ht hw _)),
    fun i h0 hd => ⟨_, hostPop_of_ok (memPop_of_instr h0 hd), len_pred_toNat h0, 
      fun a ha => ?_, rfl⟩⟩
  rw [State.setLen_mem, State.setCell_mem]
  exact Memory.read_write_other _ _ _ _ (Nat.ne_of_gt ha)

/-- Settles O38: one answer of the read primitive for each kind of cell. -/
theorem readReturnsTheDataByte : Obligations.ReadReturnsTheDataByte := by
  intro cfg s a hl
  simp only [hostStepIn_of_load hl, hostInLoad]
  exact ⟨fun hge => hostRead_of_error (memRead_of_ge hge),
    fun hlt ht => hostRead_of_error (memRead_of_tagged hlt ht),
    fun hlt ht hw => hostRead_of_error (memRead_of_malformed hlt ht hw),
    fun _ hlt hd => hostRead_of_ok (memRead_of_data hlt hd)⟩

/-- Settles O39: the written cell holds the word of Data, which a read accepts and a fetch does not. -/
theorem writeRetagsTheCell : Obligations.WriteRetagsTheCell := by
  intro cfg s a v hl
  refine ⟨fun hge => ?_, fun hlt => ?_⟩
  · rw [hostStepIn_of_load hl]
    exact hostWrite_of_error (memWrite_of_ge hge v)
  · have hlt' : a < (s.setCell a (wordOfData v)).len := hlt
    have hl' : (s.setCell a (wordOfData v)).runState = .load := hl
    have hdata : decodeCell ((s.setCell a (wordOfData v)).cell a) = .data v := by simp
    have htag : tagOf ((s.setCell a (wordOfData v)).cell a) = false :=
      (decodeCell_eq_data_iff.1 hdata).1
    refine ⟨s.setCell a (wordOfData v), ?_, hdata,
      fun k hk => Memory.read_write_other _ _ _ _ hk.symm, rfl, ?_, ?_⟩
    · rw [hostStepIn_of_load hl]
      exact hostWrite_of_ok (memWrite_of_lt hlt v)
    · rw [hostStepIn_of_load hl']
      exact hostRead_of_ok (memRead_of_data hlt' hdata)
    · rw [hostStepIn_of_load hl']
      exact hostFetch_of_error (memFetch_of_untagged hlt' htag)

end Sys2Proof.Machine

/-! PROOFS. The encoding family (30_encoding.md): the fields of a word given as a number, the decoder's line
for each kind of tag, and from these the listing of `decode_cell` and the table of the instructions' words. -/

namespace Sys2Proof

/-! ## The decoder's lines (R67) -/

theorem decodeCell_of_untagged {w : CellWord} (ht : tagOf w = false) : decodeCell w =
    if dataHigh w = 0#15 then .data (fieldB w) else .invalid w .dataBitsNonZero := by
  simp [decodeCell, ht]

theorem decodeCell_of_tagged {w : CellWord} (ht : tagOf w = true) : decodeCell w =
    if rsvOf w = 0#3 then decodeInstr w else .invalid w .reservedNonZero := by
  simp [decodeCell, ht]

theorem decodeInstr_of_unassigned {w : CellWord} (h : 10 ≤ (opcOf w).toNat) :
    decodeInstr w = .invalid w .unassignedOpcode := by
  unfold decodeInstr
  split
  case h_11 => rfl
  all_goals omega

/-! ## The fields of a word given as a number (R61) -/

/-- A byte field that holds a number below 256 is zero exactly when the number is. -/
theorem ofNat_byte_eq_zero_iff {n : Nat} (h : n < 256) : BitVec.ofNat 8 n = 0#8 ↔ n = 0 := by
  rw [← BitVec.toNat_inj, BitVec.toNat_ofNat, Nat.mod_eq_of_lt h, BitVec.toNat_zero]

theorem untagged_fields {w : CellWord} {high v : Nat} (hh : high < 2 ^ 15) (hv : v < 256)
    (hw : w.toNat = high * 2 ^ 8 + v) :
    tagOf w = false ∧ (dataHigh w = 0#15 ↔ high = 0) ∧ fieldB w = BitVec.ofNat 8 v := by
  rw [tagOf_eq, dataHigh_eq_zero, fieldB_eq_ofNat, decide_eq_false_iff_not, hw]
  omega

theorem tagged_fields {w : CellWord} {rsv opc a b : Nat} (hr : rsv < 8) (ho : opc < 16) (ha : a < 256)
    (hb : b < 256) (hw : w.toNat = 2 ^ 23 + rsv * 2 ^ 20 + opc * 2 ^ 16 + a * 2 ^ 8 + b) :
    tagOf w = true ∧ (rsvOf w = 0#3 ↔ rsv = 0) ∧ (opcOf w).toNat = opc ∧
      fieldA w = BitVec.ofNat 8 a ∧ fieldB w = BitVec.ofNat 8 b := by
  rw [tagOf_eq, rsvOf_eq_zero, opcOf_toNat, fieldA_eq_ofNat, fieldB_eq_ofNat, decide_eq_true_eq, hw]
  omega

end Sys2Proof

namespace Sys2Proof.Machine

/-! ## The statements -/

/-- Settles O1: the number gives the fields, and each line of the decoder reads only them. -/
theorem decodeCellFollowsTheListing : Obligations.DecodeCellFollowsTheListing := by
  refine ⟨fun w high v hh hv hw => ?_, fun w rsv opc a b hr ho ha hb hw => ?_⟩
  · obtain ⟨htag, hhigh, hbyte⟩ := untagged_fields hh hv hw
    rw [decodeCell_of_untagged htag, hbyte]
    exact ⟨fun h => if_pos (hhigh.2 h), fun h => ⟨_, if_neg (mt hhigh.1 h)⟩⟩
  · obtain ⟨htag, hrsv, hopc, hA, hB⟩ := tagged_fields hr ho ha hb hw
    have ha0 := ofNat_byte_eq_zero_iff ha
    have hb0 := ofNat_byte_eq_zero_iff hb
    rw [decodeCell_of_tagged htag]
    refine ⟨fun h => ⟨_, if_neg (mt hrsv.1 h)⟩, fun h => ?_⟩
    rw [if_pos (hrsv.2 h)]
    have hunassigned : 10 ≤ opc → ∃ why, decodeInstr w = .invalid w why :=
      fun h10 => ⟨_, decodeInstr_of_unassigned (hopc ▸ h10)⟩
    refine ⟨?_, ?_, ?_, ?_, ?_, ?_, ?_, ?_, ?_, ?_, ?_, ?_, ?_, hunassigned⟩ <;>
      rintro rfl <;> simp only [decodeInstr, hopc, hA, hB, ha0, hb0]
    -- what is left: the unused fields of OUT, NOT and HLT
    · exact fun h => if_pos h
    · exact fun h => ⟨_, if_neg h⟩
    · exact fun h => if_pos h
    · exact fun h => ⟨_, if_neg h⟩
    · exact fun h1 h2 => if_pos ⟨h1, h2⟩
    · exact fun h => ⟨_, if_neg (not_and_or.2 h)⟩

/-- Settles O2: the sum of opcode and operand fields is the table's word, and the words above HLT's row up to
0x8FFFFF have TAG 1, RSV 0 and an OPC of 10 or more. -/
theorem encodedWordsAreTheTables : Obligations.EncodedWordsAreTheTables := by
  refine ⟨fun a b => ?_, fun w hlo hhi => ?_⟩
  · simp only [encode_toNat, Instr.opcode, Instr.operandA, Instr.operandB, BitVec.reduceToNat]
    omega
  · have htag : tagOf w = true := by rw [tagOf_eq, decide_eq_true_eq]; omega
    have hrsv : rsvOf w = 0#3 := by rw [rsvOf_eq_zero]; omega
    have hopc : 10 ≤ (opcOf w).toNat := by rw [opcOf_toNat]; omega
    rw [decodeCell_of_tagged htag, if_pos hrsv]
    exact ⟨_, decodeInstr_of_unassigned hopc⟩

end Sys2Proof.Machine

/-! PROOFS. The fetch-execute family (40_fetch_execute.md): every step that ends in FAULT is one fault entry
on the state before the step, with pc as the fetch left it, and from this the statements about faults. -/

namespace Sys2Proof.Machine

variable {pcW : Nat}

/-! ## Which fault entry a faulting step is (R92, R96) -/

/-- The causes a fetch can raise in a run (R92). -/
def FaultCause.ofFetch (c : FaultCause) : Prop := c = .memoryTypeViolation ∨ c = .illegalEncoding

/-- The causes an execution can raise (R96, R99, R117). -/
def FaultCause.ofExecution (c : FaultCause) : Prop := c = .registerIndexViolation ∨ c = .arithmeticOverflow

/-- An instruction that takes a running CORE to FAULT does nothing but enter it. -/
theorem execIn_eq_raise_of_fault {mode : OverflowMode} {i : Instr} {s t : State pcW}
    (h : execIn mode i s = .next t) (hs : s.runState = .run) (ht : t.runState = .fault) :
    ∃ c : FaultCause, c.ofExecution ∧ t = s.raise c (s.pc - 1) := by
  rcases execIn_next h with ⟨_, _, ⟨r, v, rfl⟩ | ⟨_, r, _, _, rfl⟩⟩ | ⟨_, rfl⟩ | ⟨_, _, e⟩ | ⟨_, _, _, _, e⟩
  · simp [hs] at ht
  · simp [hs] at ht
  · simp at ht
  · exact ⟨_, .inl rfl, e⟩
  · exact ⟨_, .inr rfl, e⟩

/-- A step that ends in FAULT entered it from the fetch, or from the execution after the increment; both
record the address of the cell. -/
theorem stepIn_eq_raise_of_fault {cfg : Config} {s t : State cfg.pcW} (h : stepIn cfg s = .next t)
    (ht : t.runState = .fault) :
    ∃ c : FaultCause, (c.ofFetch ∧ t = s.raise c s.pc) ∨ (c.ofExecution ∧ t = s.advancePc.raise c s.pc) := by
  obtain ⟨hr, ⟨_, rfl⟩ | ⟨_, r, hu, rfl⟩ | ⟨_, i, _, hx⟩⟩ := stepIn_next h
  · simp at ht
  · obtain ⟨_, haddr, hc⟩ := useAsInstr_error hu
    exact ⟨r.cause, .inl ⟨hc, by rw [haddr]⟩⟩
  · obtain ⟨c, hc, rfl⟩ := execIn_eq_raise_of_fault hx hr ht
    exact ⟨c, .inr ⟨hc, by rw [State.advancePc_pc, BitVec.add_sub_cancel]⟩⟩

/-! ## The statements -/

/-- Settles O27: the tag and the layout of the cell at pc decide what the fetch answers. -/
theorem fetchFaultsLeavePcAtTheCell : Obligations.FetchFaultsLeavePcAtTheCell := by
  intro s hr hp
  simp only [← stepIn_core]
  refine ⟨fun ht => stepIn_of_error hr hp (useAsInstr_of_data ht _),
    fun ht hw => stepIn_of_error hr hp (useAsInstr_of_malformed ht hw _), fun ht hw => ?_⟩
  obtain ⟨i, hd⟩ := (wordWellFormed_of_tagged ht).1 hw
  exact ⟨i, hd, (stepIn_of_instr hr hp hd).trans (execIn_core i s.advancePc)⟩

/-- Settles O29: a fault entry, before or after the increment, leaves registers, memory and trace alone. -/
theorem faultingStepHasNoPartialEffect : Obligations.FaultingStepHasNoPartialEffect := by
  refine ⟨fun s => (stepIn_core s).symm, fun cfg s t h ht => ?_⟩
  obtain ⟨c, ⟨hc, rfl⟩ | ⟨hc, rfl⟩⟩ := stepIn_eq_raise_of_fault h ht
  · exact ⟨rfl, rfl, rfl, rfl, rfl, .inl ⟨rfl, hc⟩⟩
  · exact ⟨rfl, rfl, rfl, rfl, rfl, .inr ⟨rfl, hc⟩⟩

end Sys2Proof.Machine

/-! PROOFS. The ALU family (41_alu.md): what a two-operand instruction does with a result, without one and
with a bad index, which of these ADD and SUB have in each overflow mode, and from these the statements. -/

namespace Sys2Proof.Machine

variable {pcW : Nat}

/-! ## The three ways of a two-operand instruction (R110) -/

section BinaryAlu

variable {f : Byte → Byte → Option Byte} {a b v : Byte} {ra rb : RegIdx} {s : State pcW}

theorem binaryAlu_of_some (ha : a.toNat = ra.val) (hb : b.toNat = rb.val)
    (hf : f (s.reg ra) (s.reg rb) = some v) : binaryAlu f a b s = s.writeReg 0 v := by
  rw [binaryAlu, withRegs_of_idx ha hb, hf, writeResult]

theorem binaryAlu_of_none (ha : a.toNat = ra.val) (hb : b.toNat = rb.val)
    (hf : f (s.reg ra) (s.reg rb) = none) :
    binaryAlu f a b s = s.raise .arithmeticOverflow (s.pc - 1) := by
  rw [binaryAlu, withRegs_of_idx ha hb, hf, writeResult]

theorem binaryAlu_of_bad (h : 7 < a.toNat ∨ 7 < b.toNat) :
    binaryAlu f a b s = s.raise .registerIndexViolation (s.pc - 1) := withRegs_of_bad h s _

end BinaryAlu

/-! ## The results of ADD and SUB (R111, R112, R117) -/

section Results

variable {x y : Byte}

theorem addResult_of_le (mode : OverflowMode) (h : x.toNat + y.toNat ≤ 255) :
    addResult mode x y = some (BitVec.ofNat 8 (x.toNat + y.toNat)) := by
  rw [addResult_eq, if_pos (.inl h)]

theorem addResult_fault_of_gt (h : 255 < x.toNat + y.toNat) : addResult .fault x y = none := by
  rw [addResult_eq, if_neg (by simpa using h)]

theorem addResult_wrap (x y : Byte) :
    addResult .wrap x y = some (BitVec.ofNat 8 ((x.toNat + y.toNat) % 256)) := by
  have hv : BitVec.ofNat 8 (x.toNat + y.toNat) = BitVec.ofNat 8 ((x.toNat + y.toNat) % 256) := by bv_omega
  rw [addResult_eq, if_pos (.inr rfl), hv]

theorem subResult_of_le (mode : OverflowMode) (h : y.toNat ≤ x.toNat) :
    subResult mode x y = some (BitVec.ofNat 8 (x.toNat - y.toNat)) := by
  have hv : x - y = BitVec.ofNat 8 (x.toNat - y.toNat) := by bv_omega
  rw [subResult_eq, if_pos (.inl h), hv]

theorem subResult_fault_of_lt (h : x.toNat < y.toNat) : subResult .fault x y = none := by
  rw [subResult_eq, if_neg (by simpa using h)]

theorem subResult_wrap (x y : Byte) :
    subResult .wrap x y = some (BitVec.ofNat 8 ((x.toNat + 256 - y.toNat) % 256)) := by
  have hv : x - y = BitVec.ofNat 8 ((x.toNat + 256 - y.toNat) % 256) := by bv_omega
  rw [subResult_eq, if_pos (.inr rfl), hv]

end Results

/-! ## The meanings by name: ADD and SUB in either mode, the others in this hardware's `exec` -/

theorem execIn_add (mode : OverflowMode) (a b : Byte) (s : State pcW) :
    execIn mode (.add a b) s = .next (binaryAlu (addResult mode) a b s) := rfl

theorem execIn_sub (mode : OverflowMode) (a b : Byte) (s : State pcW) :
    execIn mode (.sub a b) s = .next (binaryAlu (subResult mode) a b s) := rfl

theorem exec_and (a b : Byte) (s : State) :
    exec (.and a b) s = .next (binaryAlu (fun x y => some (x &&& y)) a b s) := rfl

theorem exec_or (a b : Byte) (s : State) :
    exec (.or a b) s = .next (binaryAlu (fun x y => some (x ||| y)) a b s) := rfl

theorem exec_xor (a b : Byte) (s : State) :
    exec (.xor a b) s = .next (binaryAlu (fun x y => some (x ^^^ y)) a b s) := rfl

theorem exec_not (a : Byte) (s : State) :
    exec (.not a) s = .next (withReg a s fun r => s.writeReg 0 (if s.reg r = 0 then 1 else 0)) := rfl

/-! ## The statements -/

/-- Settles O7: with good indices the sum alone says whether there is a result; a bad index is seen before
the mode is. -/
theorem addWritesTheSumOrFaults : Obligations.AddWritesTheSumOrFaults := by
  intro a b s
  obtain ⟨hword, -⟩ := encodedWordsAreTheTables.1 a b
  simp only [← execIn_core, execIn_add]
  exact ⟨hword, fun _ _ ha hb =>
      ⟨fun h => congrArg _ (binaryAlu_of_some ha hb (addResult_of_le _ h)),
        fun h => congrArg _ (binaryAlu_of_none ha hb (addResult_fault_of_gt h)),
        congrArg _ (binaryAlu_of_some ha hb (addResult_wrap _ _))⟩,
    fun h => ⟨congrArg _ (binaryAlu_of_bad h),
      congrArg _ ((binaryAlu_of_bad h).trans (binaryAlu_of_bad h).symm)⟩, trivial⟩

/-- Settles O8: as for ADD, with the order of the two sources in place of the size of the sum. -/
theorem subWritesTheDifferenceOrFaults : Obligations.SubWritesTheDifferenceOrFaults := by
  intro a b s
  obtain ⟨-, hword, -⟩ := encodedWordsAreTheTables.1 a b
  simp only [← execIn_core, execIn_sub]
  exact ⟨hword, fun _ _ ha hb =>
      ⟨fun h => congrArg _ (binaryAlu_of_some ha hb (subResult_of_le _ h)),
        fun h => congrArg _ (binaryAlu_of_none ha hb (subResult_fault_of_lt h)),
        congrArg _ (binaryAlu_of_some ha hb (subResult_wrap _ _))⟩,
    fun h => ⟨congrArg _ (binaryAlu_of_bad h),
      congrArg _ ((binaryAlu_of_bad h).trans (binaryAlu_of_bad h).symm)⟩, trivial⟩

/-- Settles O11: equal indices name one register, and 255 is the byte of all ones. -/
theorem xorWritesTheBitwiseXor : Obligations.XorWritesTheBitwiseXor := by
  intro a b s
  obtain ⟨-, -, -, -, -, -, hword, -⟩ := encodedWordsAreTheTables.1 a b
  simp only [exec_xor]
  refine ⟨hword, fun ra rb ha hb => ?_, fun h => congrArg _ (binaryAlu_of_bad h)⟩
  rw [binaryAlu_of_some ha hb rfl]
  refine ⟨rfl, fun hab => ?_, fun h255 => ?_⟩
  · obtain rfl : ra = rb := Fin.ext (by rw [← ha, ← hb, hab])
    rw [BitVec.xor_self]; rfl
  · have hones : s.reg rb = BitVec.allOnes 8 := h255
    rw [hones, BitVec.xor_allOnes]; rfl

/-- Settles O9: a bitwise and always has a result. -/
theorem andWritesTheBitwiseAnd : Obligations.AndWritesTheBitwiseAnd := by
  intro a b s
  obtain ⟨-, -, -, -, hword, -⟩ := encodedWordsAreTheTables.1 a b
  simp only [exec_and]
  exact ⟨hword, fun _ _ ha hb => congrArg _ (binaryAlu_of_some ha hb rfl),
    fun h => congrArg _ (binaryAlu_of_bad h)⟩

/-- Settles O10: a bitwise or always has a result. -/
theorem orWritesTheBitwiseOr : Obligations.OrWritesTheBitwiseOr := by
  intro a b s
  obtain ⟨-, -, -, -, -, hword, -⟩ := encodedWordsAreTheTables.1 a b
  simp only [exec_or]
  exact ⟨hword, fun _ _ ha hb => congrArg _ (binaryAlu_of_some ha hb rfl),
    fun h => congrArg _ (binaryAlu_of_bad h)⟩

/-- Settles O12: the one index check passes or raises, and the register is compared with 0. -/
theorem notWritesTheTruthInversion : Obligations.NotWritesTheTruthInversion := by
  intro a s
  obtain ⟨-, -, -, -, -, -, -, -, hword, -⟩ := encodedWordsAreTheTables.1 a 0
  simp only [exec_not]
  refine ⟨hword, fun ra ha => ?_, fun h => congrArg _ (withReg_of_bad h s _)⟩
  rw [withReg_of_idx ha]
  exact ⟨fun h => by rw [if_pos h]; rfl, fun h => by rw [if_neg h]; rfl⟩

end Sys2Proof.Machine

/-! PROOFS. The move family (42_move.md): what writing a register's own or another's value leaves of the
registers, the meanings of LD, LDA and OUT by name, and from these the statements. -/

namespace Sys2Proof.Machine

variable {pcW : Nat}

/-! ## Writing a value some register already holds -/

theorem State.writeReg_self (r : RegIdx) (s : State pcW) : s.writeReg r (s.reg r) = s :=
  State.eq_of_fields (Vector.set_getElem_self r.isLt) rfl rfl rfl rfl rfl rfl rfl

/-- The source of a copy keeps its value, the destination's own copy included. -/
theorem State.reg_writeReg_source (ra rb : RegIdx) (s : State pcW) :
    (s.writeReg ra (s.reg rb)).reg rb = s.reg rb := by
  by_cases h : rb = ra
  · rw [h, State.reg_writeReg_same]
  · exact State.reg_writeReg_other ra rb _ s h

/-! ## The meanings by name -/

theorem exec_ld (a v : Byte) (s : State) :
    exec (.ld a v) s = .next (withReg a s fun r => s.writeReg r v) := rfl

theorem exec_lda (a b : Byte) (s : State) :
    exec (.lda a b) s = .next (withRegs a b s fun rd rs => s.writeReg rd (s.reg rs)) := rfl

theorem exec_out (a : Byte) (s : State) :
    exec (.out a) s = .next (withReg a s fun r => s.emit (s.reg r)) := rfl

/-! ## The statements -/

/-- Settles O16: a copy keeps its source, and equal indices copy a register to itself. -/
theorem ldaCopiesTheRegister : Obligations.LdaCopiesTheRegister := by
  intro a b s
  obtain ⟨-, -, -, hword, -⟩ := encodedWordsAreTheTables.1 a b
  simp only [exec_lda]
  refine ⟨hword, fun ra rb ha hb => ?_, fun h => congrArg _ (withRegs_of_bad h s _)⟩
  rw [withRegs_of_idx ha hb]
  refine ⟨rfl, fun hab => ?_, _, rfl, State.reg_writeReg_source ra rb s, State.reg_writeReg_same ra _ s⟩
  obtain rfl : ra = rb := Fin.ext (by rw [← ha, ← hb, hab])
  rw [State.writeReg_self]

/-- Settles O15: the OUT after the load passes the same index check and reads the literal just written. -/
theorem ldWritesTheLiteral : Obligations.LdWritesTheLiteral := by
  intro a v s
  obtain ⟨-, -, hword, -⟩ := encodedWordsAreTheTables.1 a v
  simp only [exec_ld, exec_out]
  refine ⟨hword, fun ra ha => ?_, fun h => congrArg _ (withReg_of_bad h s _)⟩
  rw [withReg_of_idx ha]
  refine ⟨rfl, _, rfl, ?_⟩
  rw [withReg_of_idx ha, State.reg_writeReg_same]
  rfl

end Sys2Proof.Machine

/-! PROOFS. The system family (43_system.md): the meaning of HLT and the instruction its word is, and from
these the statements about OUT and HLT. -/

namespace Sys2Proof.Machine

/-! ## HLT by name and by word -/

theorem exec_hlt (s : State) : exec .hlt s = .next s.halt := rfl

theorem decodeCell_hlt_word : decodeCell 0x890000#24 = .instr .hlt := by decide

/-! ## The statements -/

/-- Settles O18: the one index check lets the register be emitted, or raises before anything is. -/
theorem outEmitsTheRegister : Obligations.OutEmitsTheRegister := by
  intro a s
  obtain ⟨-, -, -, -, -, -, -, hword, -⟩ := encodedWordsAreTheTables.1 a 0
  simp only [exec_out]
  exact ⟨hword, fun _ ha => congrArg _ (withReg_of_idx ha s _), fun h => congrArg _ (withReg_of_bad h s _)⟩

/-- Settles O19: the step executes the fetched HLT on the state after the increment, and HLT writes RUNSTATE
alone. -/
theorem hltEndsTheRun : Obligations.HltEndsTheRun := by
  obtain ⟨-, -, -, -, -, -, -, -, -, hword⟩ := encodedWordsAreTheTables.1 0 0
  refine ⟨hword, exec_hlt, fun s hr hp hc => ?_⟩
  have hd : decodeCell (s.cell s.pc) = .instr .hlt := by rw [hc, decodeCell_hlt_word]
  calc step s = stepIn Config.core s := (stepIn_core s).symm
    _ = execIn Config.core.overflowMode .hlt s.advancePc := stepIn_of_instr hr hp hd
    _ = .next s.advancePc.halt := rfl

end Sys2Proof.Machine

/-! PROOFS. The host family (44_host_ops.md): the reset and the refused operations, the answers of a fetch, and
how a run of appends builds up the cells of H_LOAD; from these the statements about H_RESET, H_LOAD, H_LEN,
H_FETCH and H_START. -/

namespace Sys2Proof.Machine

variable {pcW : Nat}

/-! ## Which states accept an operation (R150, R151) -/

theorem hostStepIn_reset (cfg : Config) (s : State cfg.pcW) :
    hostStepIn cfg .reset s = .done (State.resetAt cfg.pcW) .unit := by
  unfold hostStepIn
  cases s.runState <;> rfl

theorem hostStepIn_of_not_load {cfg : Config} {op : HostOp cfg.pcW} {s : State cfg.pcW} (ho : op ≠ .reset)
    (h : s.runState ≠ .load) : hostStepIn cfg op s = .noMove := by
  unfold hostStepIn
  split
  · exact absurd rfl ho
  · exact absurd ‹_› h
  · rfl

/-- Registers at their reset value read 0 (R23). -/
theorem State.reg_of_regs_replicate {s : State pcW} (h : s.regs = Vector.replicate 8 0) (r : RegIdx) :
    s.reg r = 0 := by
  simp [State.reg, h]

/-! ## What a fetch answers (R38, R158) -/

section Fetch

variable {s : State pcW} {a : BitVec pcW}

theorem memFetch_of_ge (h : s.len ≤ a) : memFetch a s = .error ⟨.memoryRangeViolation, a⟩ := if_pos h

theorem memFetch_of_malformed (h : a < s.len) (ht : tagOf (s.cell a) = true)
    (hw : wordWellFormed (s.cell a) = false) : memFetch a s = .error ⟨.illegalEncoding, a⟩ :=
  (memFetch_of_lt h).trans (useAsInstr_of_malformed ht hw a)

theorem memFetch_of_instr {i : Instr} (h : a < s.len) (hd : decodeCell (s.cell a) = .instr i) :
    memFetch a s = .ok i :=
  (memFetch_of_lt h).trans (useAsInstr_of_instr hd a)

theorem hostFetch_of_ok {i : Instr} (h : memFetch a s = .ok i) : hostFetch a s = .done s (.instr i) := by
  simp [hostFetch, h]

end Fetch

/-! ## Cells appended one after another (R36, R37, R42) -/

/-- `t` is `s` with the words `ws` appended in order at LEN: nothing but MEM and LEN differs, and of MEM
only the new cells. -/
structure State.Appends (ws : List CellWord) (s t : State pcW) : Prop where
  len : t.len.toNat = s.len.toNat + ws.length
  newCells : ∀ (k : Nat) (h : k < ws.length), Memory.read (s.len.toNat + k) t.mem = ws[k]
  oldCells : ∀ a : Nat, (a < s.len.toNat ∨ t.len.toNat ≤ a) → Memory.read a t.mem = Memory.read a s.mem
  frame : t = { s with mem := t.mem, len := t.len }

theorem State.Appends.nil (s : State pcW) : State.Appends [] s s :=
  ⟨rfl, nofun, fun _ _ => rfl, rfl⟩

/-- The append of one word, then of the rest: the later appends leave the first word's cell alone. -/
theorem State.Appends.cons {cfg : Config} {w : CellWord} {ws : List CellWord} {s u t : State cfg.pcW}
    (hw : memAppend cfg w s = .ok u) (hroom : s.len.toNat < cfg.memCells) (h : State.Appends ws u t) :
    State.Appends (w :: ws) s t := by
  obtain ⟨-, rfl⟩ := memAppend_ok hw
  obtain ⟨hlen, hnew, hold, hframe⟩ := h
  have hsucc := len_succ_toNat hroom
  simp only [State.setLen_len, State.setLen_mem, State.setCell_mem, hsucc] at hlen hnew hold
  refine ⟨by simp only [List.length_cons]; omega, fun k hk => ?_, fun a ha => ?_, hframe⟩
  · cases k with
    | zero => exact (hold _ (.inl (Nat.lt_succ_self _))).trans (Memory.read_write_same _ _ _)
    | succ k =>
      have hk' : k < ws.length := Nat.lt_of_succ_lt_succ hk
      rw [← Nat.add_assoc, Nat.add_right_comm]
      exact hnew k hk'
  · rw [hold a (by omega)]
    exact Memory.read_write_other _ _ _ _ (by omega)

/-- H_LOAD appends a front part that fits as Data cells and goes on with the rest (R152). -/
theorem hostLoad_append {cfg : Config} {front : List Byte} {s : State cfg.pcW}
    (h : s.len.toNat + front.length ≤ cfg.memCells) (rest : List Byte) :
    ∃ t, State.Appends (front.map wordOfData) s t ∧ hostLoad cfg (front ++ rest) s = hostLoad cfg rest t := by
  induction front generalizing s with
  | nil => exact ⟨s, .nil s, rfl⟩
  | cons v vs ih =>
    rw [List.length_cons] at h
    have hroom : s.len.toNat < cfg.memCells := by omega
    have hv := memAppend_of_lt hroom (wordOfData v)
    have hsucc := len_succ_toNat hroom
    obtain ⟨t, ht, hload⟩ := ih (s := (s.setCell s.len (wordOfData v)).setLen (s.len + 1))
      (by rw [State.setLen_len, hsucc]; omega)
    refine ⟨t, .cons hv hroom ht, ?_⟩
    rw [List.cons_append, hostLoad, memAppendData, hv]
    exact hload

/-- The first byte that does not fit raises at the full memory (R36, R152). -/
theorem hostLoad_of_full {cfg : Config} {s : State cfg.pcW} (h : s.len.toNat = cfg.memCells) (v : Byte)
    (rest : List Byte) :
    hostLoad cfg (v :: rest) s = .raised (s.raise .memoryCapacityExceeded s.len) := by
  rw [hostLoad, memAppendData, memAppend_of_full h]

/-- H_LOAD of bytes that all fit completes (R152). -/
theorem hostLoad_of_fits {cfg : Config} {bytes : List Byte} {s : State cfg.pcW}
    (h : s.len.toNat + bytes.length ≤ cfg.memCells) :
    ∃ t, State.Appends (bytes.map wordOfData) s t ∧ hostLoad cfg bytes s = .done t .unit := by
  obtain ⟨t, ht, hload⟩ := hostLoad_append h []
  rw [List.append_nil] at hload
  exact ⟨t, ht, hload⟩

/-- H_LOAD of too many bytes appends the front part that fills the memory and raises (R152). -/
theorem hostLoad_of_overflow {cfg : Config} {bytes : List Byte} {s : State cfg.pcW}
    (hle : s.len.toNat ≤ cfg.memCells) (h : cfg.memCells < s.len.toNat + bytes.length) :
    ∃ front rest t, bytes = front ++ rest ∧ State.Appends (front.map wordOfData) s t ∧
      t.len.toNat = cfg.memCells ∧
      hostLoad cfg bytes s = .raised (t.raise .memoryCapacityExceeded t.len) := by
  have hroom : cfg.memCells - s.len.toNat < bytes.length := by omega
  have hfront : s.len.toNat + (bytes.take (cfg.memCells - s.len.toNat)).length = cfg.memCells := by
    rw [List.length_take]
    omega
  have hsplit := List.take_append_drop (cfg.memCells - s.len.toNat) bytes
  rw [List.drop_eq_getElem_cons hroom] at hsplit
  obtain ⟨t, ht, hload⟩ := hostLoad_append hfront.le (bytes[cfg.memCells - s.len.toNat] :: bytes.drop _)
  rw [hsplit] at hload
  have hfull : t.len.toNat = cfg.memCells := by rw [ht.len, List.length_map, hfront]
  exact ⟨_, _, t, hsplit.symm, ht, hfull, hload.trans (hostLoad_of_full hfull _ _)⟩

/-- Where the appended words are the Data words of a front part, the new cells decode to its bytes. -/
theorem State.Appends.decode_newCells {bytes front rest : List Byte} {s t : State pcW}
    (h : State.Appends (front.map wordOfData) s t) (hb : bytes = front ++ rest) (k : Nat)
    (hk : s.len.toNat + k < t.len.toNat) :
    decodeCell (Memory.read (s.len.toNat + k) t.mem) = .data (bytes.getD k 0) := by
  have hlen := h.len
  rw [List.length_map] at hlen
  have hk' : k < front.length := by omega
  rw [h.newCells k (by rwa [List.length_map]), List.getElem_map, decodeCell_wordOfData, hb,
    List.getD_append _ _ _ _ hk', List.getD_eq_getElem _ _ hk']

/-! ## The statements -/

/-- Settles O35: the appended part is the whole list where it fits, else the front part that fills the
memory; its cells are Data of its bytes. -/
theorem loadAppendsTheBytesInOrder : Obligations.LoadAppendsTheBytesInOrder := by
  intro cfg s bytes hl hle
  rw [hostStepIn_of_load hl, hostInLoad]
  by_cases hfit : s.len.toNat + bytes.length ≤ cfg.memCells
  · simp only [if_pos hfit]
    obtain ⟨t, ht, hload⟩ := hostLoad_of_fits hfit
    have hlen : t.len.toNat = s.len.toNat + bytes.length := by rw [ht.len, List.length_map]
    exact ⟨t, ⟨hload, hlen, ht.frame⟩, ht.decode_newCells (List.append_nil _).symm, ht.oldCells⟩
  · simp only [if_neg hfit]
    obtain ⟨front, rest, t, hsplit, ht, hfull, hload⟩ := hostLoad_of_overflow hle (Nat.lt_of_not_le hfit)
    have hframe := congrArg (State.raise .memoryCapacityExceeded t.len) ht.frame
    exact ⟨_, ⟨hload, hfull, hframe⟩, ht.decode_newCells hsplit, ht.oldCells⟩

/-- Settles O40: LEN is answered as it stands; one answer of the fetch primitive for each kind of cell. -/
theorem lenAndFetchChangeNothing : Obligations.LenAndFetchChangeNothing := by
  intro cfg s a hl
  simp only [hostStepIn_of_load hl, hostInLoad]
  exact ⟨rfl, fun hge => hostFetch_of_error (memFetch_of_ge hge),
    fun hlt ht => hostFetch_of_error (memFetch_of_untagged hlt ht),
    fun hlt ht hw => hostFetch_of_error (memFetch_of_malformed hlt ht hw),
    fun _ hlt hd => hostFetch_of_ok (memFetch_of_instr hlt hd)⟩

/-- Settles O41: the invariant has pc and the registers at reset in LOAD, H_START writes RUNSTATE alone, and
outside LOAD a second one is refused. -/
theorem startBeginsTheRun : Obligations.StartBeginsTheRun := by
  intro cfg s hinv hl
  obtain ⟨hpc, hregs, -⟩ := hinv.loadFresh hl
  have hstart : hostStepIn cfg .start s = .done s.start .unit := hostStepIn_of_load hl .start
  have hagain : hostStepIn cfg .start s.start = .noMove := hostStepIn_of_not_load nofun nofun
  exact ⟨s.start, hstart, rfl, hpc, State.reg_of_regs_replicate hregs, hagain⟩

/-- Settles O32: H_RESET needs no run state and leaves the reset state, whose fields are the values of R23. -/
theorem resetGivesTheResetValues : Obligations.ResetGivesTheResetValues :=
  ⟨rfl, fun cfg s => ⟨State.resetAt cfg.pcW, hostStepIn_reset cfg s, rfl,
    State.reg_of_regs_replicate rfl, rfl, rfl, rfl, rfl, rfl, rfl⟩⟩

end Sys2Proof.Machine

/-! PROOFS. The exception family (60_exceptions.md): in FAULT neither agent has a transition but H_RESET. -/

namespace Sys2Proof.Machine

/-- No step leads on from a state outside RUN (R90). -/
theorem stepIn_ne_next_of_not_run {cfg : Config} {s : State cfg.pcW} (hs : s.runState ≠ .run)
    (t : State cfg.pcW) : stepIn cfg s ≠ .next t :=
  fun h => hs (stepIn_next h).1

/-- Settles O31: FAULT is neither RUN, which a step needs, nor LOAD, which every operation but H_RESET
needs. -/
theorem faultIsLeftOnlyByReset : Obligations.FaultIsLeftOnlyByReset := by
  refine ⟨fun s => (stepIn_core s).symm, fun cfg s hs => ?_⟩
  have hrun : s.runState ≠ .run := by simp [hs]
  have hload : s.runState ≠ .load := by simp [hs]
  exact ⟨stepIn_ne_next_of_not_run hrun, fun op hop => hostStepIn_of_not_load hop hload,
    hostStepIn_reset cfg s⟩

end Sys2Proof.Machine

/-! PROOFS. The inverse laws of the cell word (30_encoding.md section 5): the fields determine the word, and the
decoder, the encoder and the layout check agree field by field. -/

namespace Sys2Proof

/-! ## Decode after encode (R62, R63, R67) -/

theorem decodeInstr_encode (i : Instr) : decodeInstr (encode i) = .instr i := by
  unfold decodeInstr
  rw [encode_opc, encode_fieldA, encode_fieldB]
  cases i <;> rfl

@[simp] theorem decodeCell_encode (i : Instr) : decodeCell (encode i) = .instr i := by
  rw [decodeCell_of_tagged (w := encode i) (wordOfBody_tag i.body),
    if_pos (show rsvOf (encode i) = 0#3 from wordOfBody_rsv i.body), decodeInstr_encode]

/-! ## Encode after decode -/

/-- The five fields make up the whole of a tagged word (R61). -/
theorem eq_encode_of_fields {w : CellWord} {i : Instr} (ht : tagOf w = true) (hr : rsvOf w = 0#3)
    (ho : opcOf w = i.opcode) (ha : fieldA w = i.operandA) (hb : fieldB w = i.operandB) : encode i = w := by
  have hw := w.isLt
  rw [tagOf_eq, decide_eq_true_eq] at ht
  rw [rsvOf_eq_zero] at hr
  apply BitVec.eq_of_toNat_eq
  rw [encode_toNat, ← ho, ← ha, ← hb, opcOf_toNat, fieldA_toNat, fieldB_toNat]
  omega

/-- The opcode and operands of a decoded instruction are the word's fields (R64, R65). -/
theorem fields_of_decodeInstr {w : CellWord} {i : Instr} (h : decodeInstr w = .instr i) :
    opcOf w = i.opcode ∧ fieldA w = i.operandA ∧ fieldB w = i.operandB := by
  have hopc (n : BitVec 4) : (opcOf w).toNat = n.toNat → opcOf w = n := BitVec.eq_of_toNat_eq
  unfold decodeInstr at h
  split at h
  case h_11 => cases h
  case h_8 | h_9 =>
    split at h <;> cases h
    exact ⟨hopc _ ‹_›, rfl, ‹_›⟩
  case h_10 =>
    split at h <;> cases h
    rename_i hAB
    exact ⟨hopc _ ‹_›, hAB⟩
  all_goals
    cases h
    exact ⟨hopc _ ‹_›, rfl, rfl⟩

theorem encode_of_decodeCell {w : CellWord} {i : Instr} (h : decodeCell w = .instr i) : encode i = w := by
  have ht := tagOf_of_decode_instr h
  rw [decodeCell_of_tagged ht] at h
  split at h
  · obtain ⟨ho, ha, hb⟩ := fields_of_decodeInstr h
    exact eq_encode_of_fields ht ‹_› ho ha hb
  · cases h

theorem wordOfData_of_decodeCell {w : CellWord} {v : Byte} (h : decodeCell w = .data v) : wordOfData v = w := by
  obtain ⟨ht, hh, rfl⟩ := decodeCell_eq_data_iff.1 h
  have hw := w.isLt
  rw [tagOf_eq, decide_eq_false_iff_not] at ht
  rw [dataHigh_eq_zero] at hh
  apply BitVec.eq_of_toNat_eq
  rw [wordOfData_toNat, fieldB_toNat]
  omega

/-! ## The three results -/

/-- After the RSV check the decoder answers an instruction or the word itself as Invalid. -/
theorem decodeInstr_cases (w : CellWord) :
    (∃ i, decodeInstr w = .instr i) ∨ ∃ why, decodeInstr w = .invalid w why := by
  unfold decodeInstr
  (repeat' split) <;> simp

/-- A word is Invalid exactly when it is neither a Data cell nor an instruction. -/
theorem exists_invalid_iff (w : CellWord) : (∃ why, decodeCell w = .invalid w why) ↔
    (∀ v, decodeCell w ≠ .data v) ∧ ∀ i, decodeCell w ≠ .instr i := by
  constructor
  · rintro ⟨why, h⟩
    simp [h]
  · rintro ⟨hd, hi⟩
    cases ht : tagOf w with
    | false =>
      rw [decodeCell_of_untagged ht] at hd ⊢
      exact ⟨_, if_neg fun hh => hd _ (if_pos hh)⟩
    | true =>
      rw [decodeCell_of_tagged ht] at hi ⊢
      by_cases hr : rsvOf w = 0#3
      · rw [if_pos hr] at hi ⊢
        exact (decodeInstr_cases w).resolve_left fun ⟨i, h⟩ => hi i h
      · exact ⟨_, if_neg hr⟩

/-- The layout check passes exactly the words that decode to a cell. -/
theorem wordWellFormed_iff (w : CellWord) : wordWellFormed w = true ↔
    (∃ v, decodeCell w = .data v) ∨ ∃ i, decodeCell w = .instr i := by
  cases ht : tagOf w with
  | false =>
    have hi : ¬ ∃ i, decodeCell w = .instr i := fun ⟨i, h⟩ => by simp [tagOf_of_decode_instr h] at ht
    simp [wordWellFormed_of_untagged ht, decodeCell_eq_data_iff, ht, hi]
  | true => simp [wordWellFormed_of_tagged ht, decodeCell_eq_data_iff, ht]

end Sys2Proof

namespace Sys2Proof.Machine

/-! ## The statements -/

/-- Settles O3: the encoder puts each field where the decoder reads it. -/
theorem decodeOfEncodeIsTheInstruction : Obligations.DecodeOfEncodeIsTheInstruction :=
  ⟨decodeCell_encode, decodeCell_wordOfData⟩

/-- Settles O4: what the decoder reads or asks to be zero is every bit of the word. -/
theorem encodeOfDecodeIsTheWord : Obligations.EncodeOfDecodeIsTheWord :=
  ⟨fun _ _ => encode_of_decodeCell, fun _ _ => wordOfData_of_decodeCell⟩

/-- Settles O5: both sides say that the word is neither a Data cell nor an instruction. -/
theorem invalidExactlyWhenMalformed : Obligations.InvalidExactlyWhenMalformed := by
  intro w
  rw [exists_invalid_iff, ← Bool.not_eq_true, wordWellFormed_iff]
  push Not
  rfl

/-- Settles O6: the well-formed words are those of the cells named; the other four fail the layout check. -/
theorem wordsOfTheVectorsDecode : Obligations.WordsOfTheVectorsDecode :=
  ⟨decodeCell_encode (.add 1 2), decodeCell_encode (.ld 7 255), decodeCell_encode (.lda 3 0),
    decodeCell_encode (.out 7), decodeCell_hlt_word, decodeCell_wordOfData 42,
    (invalidExactlyWhenMalformed _).2 (by decide), (invalidExactlyWhenMalformed _).2 (by decide),
    (invalidExactlyWhenMalformed _).2 (by decide), (invalidExactlyWhenMalformed _).2 (by decide)⟩

end Sys2Proof.Machine

/-! PROOFS. Single instructions (40_fetch_execute.md section 1, 41_alu.md to 43_system.md): what every
instruction keeps, when it faults, and that two states with the same registers execute alike; from these the
frames of the instruction groups. -/

namespace Sys2Proof.Machine

variable {pcW : Nat} {mode : OverflowMode} {i : Instr} {s t : State pcW}

/-! ## What every instruction keeps (R94, R132) -/

theorem execIn_keeps_memory (h : execIn mode i s = .next t) : t.len = s.len ∧ t.pc = s.pc ∧ t.mem = s.mem := by
  rcases execIn_next h with ⟨_, _, ⟨r, v, rfl⟩ | ⟨_, r, _, _, rfl⟩⟩ | ⟨_, rfl⟩ | ⟨_, _, rfl⟩ | ⟨_, _, _, _, rfl⟩ <;>
    exact ⟨rfl, rfl, rfl⟩

/-! ## When an instruction faults (R99, R117) -/

/-- A result can leave the byte only where both indices name registers (R190). -/
theorem regsValid_of_resultLeavesByte (h : resultLeavesByte i s) : i.regsValid = true := by
  obtain ⟨a, b, ra, rb, ha, hb, h⟩ := h
  have hops : i.regOperands = [a, b] := by rcases h with ⟨rfl, _⟩ | ⟨rfl, _⟩ <;> rfl
  rw [← Bool.not_eq_false, regsValid_two hops, ha, hb]
  have hra := ra.isLt
  have hrb := rb.isLt
  omega

theorem not_faultsAt_hlt (mode : OverflowMode) (s : State pcW) : ¬ faultsAt mode .hlt s := by
  rintro (h | ⟨_, h⟩)
  · cases h
  · exact not_resultLeavesByte (by simp) (by simp) s h

/-- From RUN, which RUNSTATE an instruction leads to and, in FAULT, which cause it records. -/
theorem execIn_status (hs : s.runState = .run) (h : execIn mode i s = .next t) :
    (i ≠ .hlt ∧ ¬ faultsAt mode i s ∧ t.runState = .run) ∨
      (i = .hlt ∧ t.runState = .halted) ∨
      (i ≠ .hlt ∧ i.regsValid = false ∧ t.runState = .fault ∧ t.faultCause = .registerIndexViolation) ∨
      (i ≠ .hlt ∧ mode = .fault ∧ resultLeavesByte i s ∧ t.runState = .fault ∧
        t.faultCause = .arithmeticOverflow) := by
  rcases execIn_next h with ⟨hi, hf, ⟨r, v, rfl⟩ | ⟨_, r, _, _, rfl⟩⟩ | ⟨hi, rfl⟩ | ⟨hi, hv, rfl⟩ | ⟨hi, _, hm, hr, rfl⟩
  · exact .inl ⟨hi, hf, hs⟩
  · exact .inl ⟨hi, hf, hs⟩
  · exact .inr (.inl ⟨hi, rfl⟩)
  · exact .inr (.inr (.inl ⟨hi, hv, rfl, rfl⟩))
  · exact .inr (.inr (.inr ⟨hi, hm, hr, rfl, rfl⟩))

/-! ## The two ways of an ALU instruction (R110, R116) -/

/-- What the six ALU instructions can do: write R0, or fault. -/
def AluEffect (s t : State pcW) : Prop :=
  (∃ v, t = s.writeReg 0 v) ∨ ∃ c : FaultCause, c.ofExecution ∧ t = s.raise c (s.pc - 1)

theorem aluEffect_binaryAlu (f : Byte → Byte → Option Byte) (a b : Byte) (s : State pcW) :
    AluEffect s (binaryAlu f a b s) := by
  rcases binaryAlu_cases f a b s with ⟨_, _, _, _, ⟨v, _, e⟩ | ⟨_, e⟩⟩ | ⟨_, e⟩
  · exact .inl ⟨v, e⟩
  · exact .inr ⟨_, .inr rfl, e⟩
  · exact .inr ⟨_, .inl rfl, e⟩

theorem aluEffect_not (a : Byte) (s : State pcW) :
    AluEffect s (withReg a s fun r => s.writeReg 0 (if s.reg r = 0 then 1 else 0)) := by
  rcases withReg_cases a s (fun r => s.writeReg 0 (if s.reg r = 0 then 1 else 0)) with ⟨_, _, e⟩ | ⟨_, e⟩
  · exact .inl ⟨_, e⟩
  · exact .inr ⟨_, .inl rfl, e⟩

theorem execIn_aluEffect {a b : Byte}
    (hi : i = .add a b ∨ i = .sub a b ∨ i = .and a b ∨ i = .or a b ∨ i = .xor a b ∨ i = .not a)
    (h : execIn mode i s = .next t) : AluEffect s t := by
  rcases hi with rfl | rfl | rfl | rfl | rfl | rfl <;> cases h
  case inr.inr.inr.inr.inr => exact aluEffect_not a s
  all_goals exact aluEffect_binaryAlu _ a b s

/-! ## Execution reads the registers alone (R94) -/

/-- `t1` comes of `s1` as `t2` of `s2`: the same registers, RUNSTATE and emitted values, and the same fault,
each at the address before its own `pc`. -/
def SameOutcome {w1 w2 : Nat} (s1 t1 : State w1) (s2 t2 : State w2) : Prop :=
  ∃ out : List Byte, t1.regs = t2.regs ∧ t1.runState = t2.runState ∧
    t1.outlog = s1.outlog ++ out ∧ t2.outlog = s2.outlog ++ out ∧
    (t1.runState = .fault → t1.faultCause = t2.faultCause ∧
      t1.faultAddr = s1.pc - 1 ∧ t2.faultAddr = s2.pc - 1)

theorem State.reg_eq_of_regs_eq {w1 w2 : Nat} {s1 : State w1} {s2 : State w2} (h : s1.regs = s2.regs)
    (r : RegIdx) : s1.reg r = s2.reg r := by
  rw [State.reg, State.reg, h]

section Alike

variable {w1 w2 : Nat} {s1 : State w1} {s2 : State w2}

theorem sameOutcome_raise (hx : s1.regs = s2.regs) (c : FaultCause) :
    SameOutcome s1 (s1.raise c (s1.pc - 1)) s2 (s2.raise c (s2.pc - 1)) :=
  ⟨[], hx, rfl, (List.append_nil _).symm, (List.append_nil _).symm, fun _ => ⟨rfl, rfl, rfl⟩⟩

theorem sameOutcome_withReg (hx : s1.regs = s2.regs) {k1 : RegIdx → State w1} {k2 : RegIdx → State w2}
    (hk : ∀ r, SameOutcome s1 (k1 r) s2 (k2 r)) (a : Byte) :
    SameOutcome s1 (withReg a s1 k1) s2 (withReg a s2 k2) := by
  rcases idx_or_bad a with ⟨r, ha⟩ | ha
  · rw [withReg_of_idx ha, withReg_of_idx ha]
    exact hk r
  · rw [withReg_of_bad ha, withReg_of_bad ha]
    exact sameOutcome_raise hx _

theorem sameOutcome_withRegs (hx : s1.regs = s2.regs) {k1 : RegIdx → RegIdx → State w1}
    {k2 : RegIdx → RegIdx → State w2} (hk : ∀ ra rb, SameOutcome s1 (k1 ra rb) s2 (k2 ra rb)) (a b : Byte) :
    SameOutcome s1 (withRegs a b s1 k1) s2 (withRegs a b s2 k2) :=
  sameOutcome_withReg hx (fun ra => sameOutcome_withReg hx (hk ra) b) a

variable (hx : s1.regs = s2.regs) (h1 : s1.runState = .run) (h2 : s2.runState = .run)
include hx h1 h2

theorem sameOutcome_writeReg (r : RegIdx) {v1 v2 : Byte} (hv : v1 = v2) :
    SameOutcome s1 (s1.writeReg r v1) s2 (s2.writeReg r v2) :=
  ⟨[], by simp [hx, hv], h1.trans h2.symm, (List.append_nil _).symm, (List.append_nil _).symm,
    fun hf => by simp [h1] at hf⟩

theorem sameOutcome_emit (r : RegIdx) :
    SameOutcome s1 (s1.emit (s1.reg r)) s2 (s2.emit (s2.reg r)) :=
  ⟨[s1.reg r], hx, h1.trans h2.symm, rfl, by rw [State.reg_eq_of_regs_eq hx]; rfl, fun hf => by simp [h1] at hf⟩

theorem sameOutcome_binaryAlu (f : Byte → Byte → Option Byte) (a b : Byte) :
    SameOutcome s1 (binaryAlu f a b s1) s2 (binaryAlu f a b s2) := by
  refine sameOutcome_withRegs hx (fun ra rb => ?_) a b
  rw [State.reg_eq_of_regs_eq hx ra, State.reg_eq_of_regs_eq hx rb]
  cases f (s2.reg ra) (s2.reg rb) with
  | some v => exact sameOutcome_writeReg hx h1 h2 0 rfl
  | none => exact sameOutcome_raise hx _

/-- Every instruction executes alike in two running states with the same registers. -/
theorem execIn_sameOutcome (mode : OverflowMode) (i : Instr) :
    ∃ t1 t2, execIn mode i s1 = .next t1 ∧ execIn mode i s2 = .next t2 ∧ SameOutcome s1 t1 s2 t2 := by
  have hreg := State.reg_eq_of_regs_eq hx
  cases i with
  | add a b | sub a b | and a b | or a b | xor a b =>
    exact ⟨_, _, rfl, rfl, sameOutcome_binaryAlu hx h1 h2 _ a b⟩
  | ld a v => exact ⟨_, _, rfl, rfl, sameOutcome_withReg hx (fun r => sameOutcome_writeReg hx h1 h2 r rfl) a⟩
  | lda a b =>
    exact ⟨_, _, rfl, rfl,
      sameOutcome_withRegs hx (fun rd rs => sameOutcome_writeReg hx h1 h2 rd (hreg rs)) a b⟩
  | out a => exact ⟨_, _, rfl, rfl, sameOutcome_withReg hx (sameOutcome_emit hx h1 h2) a⟩
  | not a =>
    exact ⟨_, _, rfl, rfl,
      sameOutcome_withReg hx (fun r => sameOutcome_writeReg hx h1 h2 0 (by rw [hreg r])) a⟩
  | hlt =>
    exact ⟨_, _, rfl, rfl, [], hx, rfl, (List.append_nil _).symm, (List.append_nil _).symm, nofun⟩

end Alike

/-! ## The statements -/

/-- Settles O13: an ALU instruction writes R0 and nothing else, or enters FAULT and writes no register. -/
theorem aluFrame : Obligations.AluFrame := by
  refine ⟨fun i s => (execIn_core i s).symm, fun pcW mode a b i s t hi h => ?_⟩
  rcases execIn_aluEffect hi h with ⟨v, rfl⟩ | ⟨c, hc, rfl⟩
  · exact ⟨fun r hr => State.reg_writeReg_other 0 r v s hr, rfl, rfl, rfl, fun _ => rfl, .inl ⟨rfl, rfl, rfl⟩⟩
  · exact ⟨fun _ _ => rfl, rfl, rfl, rfl, fun _ => rfl, .inr ⟨rfl, rfl, rfl, hc⟩⟩

/-- Settles O14: of the effects of an instruction only the last records the cause, and it has the exact result
outside the byte. -/
theorem overflowFaultsOnlyOutsideTheByte : Obligations.OverflowFaultsOnlyOutsideTheByte := by
  intro pcW mode i s t h ht hs
  rcases execIn_next h with ⟨_, _, ⟨r, v, rfl⟩ | ⟨_, r, _, _, rfl⟩⟩ | ⟨_, rfl⟩ | ⟨_, _, rfl⟩ | ⟨_, _, hm, hr, rfl⟩
  · exact absurd ht hs
  · exact absurd ht hs
  · exact absurd ht hs
  · cases ht
  · exact ⟨hm, rfl, hr⟩

/-- Settles O17: once the indices are checked the one change is the write to the destination. -/
theorem moveFrame : Obligations.MoveFrame := by
  intro a b i s t hi h
  have hcases : (∃ (rd : RegIdx) (v : Byte), a.toNat = rd.val ∧ t = s.writeReg rd v) ∨
      t = s.raise .registerIndexViolation (s.pc - 1) := by
    rcases hi with rfl | rfl <;> cases h
    · rcases withReg_cases a s (fun r => s.writeReg r b) with ⟨rd, ha, e⟩ | ⟨_, e⟩
      · exact .inl ⟨rd, _, ha, e⟩
      · exact .inr e
    · rcases withRegs_cases a b s (fun rd rs => s.writeReg rd (s.reg rs)) with ⟨rd, _, ha, _, e⟩ | ⟨_, e⟩
      · exact .inl ⟨rd, _, ha, e⟩
      · exact .inr e
  rcases hcases with ⟨rd, v, ha, rfl⟩ | rfl
  · have hother (r : RegIdx) (hr : a.toNat ≠ r.val) : r ≠ rd := by
      rintro rfl
      exact hr ha
    exact ⟨fun r hr => State.reg_writeReg_other rd r v s (hother r hr), rfl, rfl, rfl, fun _ => rfl,
      .inl ⟨rfl, rfl, rfl⟩⟩
  · exact ⟨fun _ _ => rfl, rfl, rfl, rfl, fun _ => rfl, .inr ⟨rfl, rfl, rfl, rfl⟩⟩

/-- Settles O20: OUT emits or faults, HLT halts, and none of the three touches a register or memory. -/
theorem outputAndHaltFrame : Obligations.OutputAndHaltFrame := by
  rintro a i s t (rfl | rfl) h <;> cases h
  · rcases withReg_cases a s (fun r => s.emit (s.reg r)) with ⟨r, _, e⟩ | ⟨_, e⟩ <;> rw [e]
    · exact ⟨fun _ => rfl, rfl, rfl, fun _ => rfl, nofun, fun _ => .inl ⟨_, rfl, rfl, rfl, rfl⟩⟩
    · exact ⟨fun _ => rfl, rfl, rfl, fun _ => rfl, nofun, fun _ => .inr ⟨rfl, rfl, rfl, rfl⟩⟩
  · exact ⟨fun _ => rfl, rfl, rfl, fun _ => rfl, fun _ => ⟨rfl, rfl, rfl⟩, nofun⟩

/-- Settles O22: none of the effects of an instruction writes memory, LEN or pc. -/
theorem noInstructionTouchesMemory : Obligations.NoInstructionTouchesMemory := by
  refine ⟨fun i s => (execIn_core i s).symm, fun pcW mode i s t h => ?_⟩
  obtain ⟨hlen, hpc, hmem⟩ := execIn_keeps_memory h
  exact ⟨hlen, hpc, fun _ => by rw [hmem]⟩

/-- Settles O23: the ways of an instruction exclude each other, as a result outside the byte needs valid
indices and HLT never faults. -/
theorem instructionStaysInRunUnlessHltOrFault : Obligations.InstructionStaysInRunUnlessHltOrFault := by
  refine ⟨fun i s => (execIn_core i s).symm, fun pcW mode i s hs => ?_⟩
  obtain ⟨t, h⟩ := execIn_total mode i s
  refine ⟨t, h, ?_⟩
  rcases execIn_status hs h with ⟨hi, hf, ht⟩ | ⟨rfl, ht⟩ | ⟨hi, hv, ht, hc⟩ | ⟨hi, hm, hr, ht, hc⟩ <;> rw [ht]
  · exact ⟨by simp [hi], by simp [hf], by simp [hi, hf], fun hv => absurd (.inl hv) hf,
      fun hm hr => absurd (.inr ⟨hm, hr⟩) hf⟩
  · have hf := not_faultsAt_hlt mode s
    exact ⟨by simp, by simp [hf], by simp, fun hv => absurd (.inl hv) hf,
      fun hm hr => absurd (.inr ⟨hm, hr⟩) hf⟩
  · have hf : faultsAt mode i s := .inl hv
    exact ⟨by simp [hi], by simp [hf], by simp [hf], fun _ => hc,
      fun _ hr => by simp [regsValid_of_resultLeavesByte hr] at hv⟩
  · have hf : faultsAt mode i s := .inr ⟨hm, hr⟩
    exact ⟨by simp [hi], by simp [hf], by simp [hf],
      fun hv => by simp [regsValid_of_resultLeavesByte hr] at hv, fun _ _ => hc⟩

/-- Settles O57: whatever the width, the index checks and the results see the registers alone. -/
theorem executionSeesTheRegistersAlone : Obligations.ExecutionSeesTheRegistersAlone := by
  intro w1 w2 mode i s1 s2 hx h1 h2
  obtain ⟨t1, t2, e1, e2, out, hsame⟩ := execIn_sameOutcome hx h1 h2 mode i
  exact ⟨t1, t2, out, e1, e2, hsame⟩

end Sys2Proof.Machine

/-! PROOFS. The step (40_fetch_execute.md section 1, 10_state.md sections 2 and 6): which states have one, and what
it does to pc and to the trace; from these the statements about a single step. -/

namespace Sys2Proof.Machine

/-! ## Which states have a step (R90) -/

theorem stepIn_total {cfg : Config} {s : State cfg.pcW} (hr : s.runState = .run) :
    ∃ t, stepIn cfg s = .next t := by
  by_cases hp : s.len ≤ s.pc
  · exact ⟨_, stepIn_of_end hr hp⟩
  · have hlt : s.pc < s.len := BitVec.not_le.1 hp
    rcases useAsInstr_cases (s.cell s.pc) s.pc with ⟨i, hd, _⟩ | ⟨_, hu⟩ | ⟨_, _, hu⟩
    · rw [stepIn_of_instr hr hlt hd]
      exact execIn_total _ i _
    · exact ⟨_, stepIn_of_error hr hlt hu⟩
    · exact ⟨_, stepIn_of_error hr hlt hu⟩

/-! ## The step that fetches LD or OUT (R130, R140) -/

section Fetched

variable {cfg : Config} {s : State cfg.pcW} {a v : Byte} {r : RegIdx}

theorem stepIn_ld (hr : s.runState = .run) (hp : s.pc < s.len) (hc : s.cell s.pc = encode (.ld a v))
    (ha : a.toNat = r.val) : stepIn cfg s = .next (s.advancePc.writeReg r v) := by
  rw [stepIn_of_instr hr hp (hc ▸ decodeCell_encode _)]
  exact congrArg _ (withReg_of_idx ha s.advancePc _)

theorem stepIn_out (hr : s.runState = .run) (hp : s.pc < s.len) (hc : s.cell s.pc = encode (.out a))
    (ha : a.toNat = r.val) : stepIn cfg s = .next (s.advancePc.emit (s.reg r)) := by
  rw [stepIn_of_instr hr hp (hc ▸ decodeCell_encode _)]
  exact congrArg _ (withReg_of_idx ha s.advancePc _)

end Fetched

/-! ## The statements -/

/-- Settles O24: the fetch of a cell that decodes hands its instruction to the execution. -/
theorem stepRunsTheDecodedInstruction : Obligations.StepRunsTheDecodedInstruction := by
  intro s i hr hp hd
  rw [← stepIn_core, stepIn_of_instr hr hp hd]
  exact execIn_core i s.advancePc

/-- Settles O25: a next state needs RUN, and in RUN each answer of the fetch leads to one. -/
theorem stepExistsExactlyInRun : Obligations.StepExistsExactlyInRun := by
  intro s
  rw [← stepIn_core]
  exact ⟨fun ⟨_, h⟩ => (stepIn_next h).1, stepIn_total⟩

/-- Settles O26: the loop test comes before the fetch, and at reset pc and LEN are both 0. -/
theorem endOfMemoryHalts : Obligations.EndOfMemoryHalts := by
  have hend (s : State) (hr : s.runState = .run) (hp : s.len ≤ s.pc) : step s = .next s.halt := by
    rw [← stepIn_core, stepIn_of_end hr hp]
  exact ⟨hend, hend State.reset.start rfl (BitVec.le_refl _)⟩

/-- Settles O28: the increment comes after a fetch that answers an instruction, below LEN, where pc + 1 does not
wrap. -/
theorem pcOnlyAdvancesByOne : Obligations.PcOnlyAdvancesByOne := by
  refine ⟨fun s => (stepIn_core s).symm, fun cfg s t h => ?_⟩
  obtain ⟨-, ⟨hp, rfl⟩ | ⟨_, r, hu, rfl⟩ | ⟨hp, i, hd, hx⟩⟩ := stepIn_next h
  · exact .inl ⟨rfl, fun ⟨_, hlt, _⟩ => BitVec.not_le.2 hlt hp⟩
  · exact .inl ⟨rfl, fun ⟨i, _, hd⟩ => (useAsInstr_error hu).1 i hd⟩
  · obtain ⟨-, hpc, -⟩ := execIn_keeps_memory hx
    exact .inr ⟨by rw [hpc, State.advancePc_pc, pc_succ_toNat hp], i, hp, hd⟩

/-- Settles O30: of the effects of an instruction only OUT's writes the trace. -/
theorem traceOnlyGrowsByOut : Obligations.TraceOnlyGrowsByOut := by
  refine ⟨fun s => (stepIn_core s).symm, fun cfg s t h => ?_⟩
  obtain ⟨hr, ⟨_, rfl⟩ | ⟨_, r, _, rfl⟩ | ⟨_, i, hd, hx⟩⟩ := stepIn_next h
  · exact .inl rfl
  · exact .inl rfl
  · rcases execIn_next hx with ⟨_, _, ⟨r, v, rfl⟩ | ⟨a, r, rfl, ha, rfl⟩⟩ | ⟨_, rfl⟩ | ⟨_, _, rfl⟩ | ⟨_, _, _, _, rfl⟩
    · exact .inl rfl
    · exact .inr ⟨hr, a, r, ha, hd, rfl⟩
    all_goals exact .inl rfl

/-- Settles O21: the state between the two steps is the one after LD, and OUT reads the register LD wrote. -/
theorem loadThenOutEmitsTheLiteral : Obligations.LoadThenOutEmitsTheLiteral := by
  intro s r v hr hv hlen hc1 hc2
  have hp1 : s.pc < s.len := BitVec.lt_def.2 (by omega)
  have hpc := pc_succ_toNat hp1
  have hp2 : s.pc + 1 < s.len := BitVec.lt_def.2 (by omega)
  let ra : RegIdx := ⟨r.toNat, hv⟩
  let u := s.advancePc.writeReg ra v
  have hld : stepIn Config.core s = .next u := stepIn_ld hr hp1 hc1 rfl
  have hout : stepIn Config.core u = .next (u.advancePc.emit v) := by
    rw [stepIn_out (s := u) (r := ra) hr hp2 hc2 rfl, State.reg_writeReg_same]
  refine ⟨u.advancePc.emit v, ?_, rfl, hr, ?_⟩
  · rw [core_run_eq]
    exact (run_succ hld).trans (run_succ hout)
  · exact (pc_succ_toNat (s := u) hp2).trans (congrArg (· + 1) hpc)

end Sys2Proof.Machine

/-! PROOFS. The canonical form of memory and the invariant of the state (10_state.md sections 2, 4 and 5,
20_memory.md section 1): one lemma for each update of the state, from which every step and every host operation
keeps the invariant. -/

namespace Sys2Proof.Machine

/-! ## The canonical form is unique (log entry 1) -/

/-- The first pair's address is read from that pair alone. -/
theorem Memory.read_tail_of_wf {p : Nat × CellWord} {m : Memory} (h : Memory.wf (p :: m)) :
    Memory.read p.1 m = blankCell :=
  Memory.read_of_unlisted fun q hq => Nat.ne_of_gt ((Memory.wf_cons h).2.1 q hq)

/-- Below the first pair's address nothing is listed. -/
theorem Memory.read_of_lt_head {a : Nat} {p : Nat × CellWord} {m : Memory} (h : Memory.wf (p :: m))
    (ha : a < p.1) : Memory.read a (p :: m) = blankCell := by
  refine Memory.read_of_unlisted fun q hq => Nat.ne_of_gt ?_
  rcases List.mem_cons.1 hq with rfl | hq
  · exact ha
  · exact Nat.lt_trans ha ((Memory.wf_cons h).2.1 q hq)

theorem Memory.read_head (p : Nat × CellWord) (m : Memory) : Memory.read p.1 (p :: m) = p.2 := if_pos rfl

theorem Memory.read_cons_of_ne {a : Nat} {p : Nat × CellWord} (m : Memory) (h : p.1 ≠ a) :
    Memory.read a (p :: m) = Memory.read a m := if_neg h

/-- Where two canonical memories read alike, the first pair of the one is not below that of the other. -/
theorem Memory.head_le_of_read_eq {p q : Nat × CellWord} {m n : Memory} (hm : Memory.wf (p :: m))
    (hn : Memory.wf (q :: n)) (h : ∀ a, Memory.read a (p :: m) = Memory.read a (q :: n)) : q.1 ≤ p.1 := by
  by_contra hlt
  have hp := h p.1
  rw [Memory.read_head, Memory.read_of_lt_head hn (Nat.lt_of_not_le hlt)] at hp
  exact (Memory.wf_cons hm).2.2 hp

/-- A canonical memory in which every address is blank lists nothing. -/
theorem Memory.eq_nil_of_read_blank {m : Memory} (hm : Memory.wf m) (h : ∀ a, Memory.read a m = blankCell) :
    m = [] := by
  cases m with
  | nil => rfl
  | cons p m => exact absurd ((Memory.read_head p m).symm.trans (h p.1)) (Memory.wf_cons hm).2.2

theorem Memory.eq_of_read_eq {m n : Memory} (hm : Memory.wf m) (hn : Memory.wf n)
    (h : ∀ a, Memory.read a m = Memory.read a n) : m = n := by
  induction m generalizing n with
  | nil => exact (Memory.eq_nil_of_read_blank hn fun a => (h a).symm).symm
  | cons p m ih =>
    cases n with
    | nil => exact Memory.eq_nil_of_read_blank hm h
    | cons q n =>
      have haddr : p.1 = q.1 := Nat.le_antisymm (Memory.head_le_of_read_eq hn hm fun a => (h a).symm)
        (Memory.head_le_of_read_eq hm hn h)
      have hword : p.2 = q.2 := by
        have hp := h p.1
        rwa [Memory.read_head, haddr, Memory.read_head] at hp
      have hpq : p = q := Prod.ext haddr hword
      subst hpq
      have htail (a : Nat) : Memory.read a m = Memory.read a n := by
        by_cases ha : p.1 = a
        · rw [← ha, Memory.read_tail_of_wf hm, Memory.read_tail_of_wf hn]
        · simpa only [Memory.read_cons_of_ne _ ha] using h a
      rw [ih (Memory.wf_cons hm).1 (Memory.wf_cons hn).1 htail]

/-- Storing a blank cell lists nothing new and drops the address. -/
theorem Memory.mem_write_blank {a : Nat} {m : Memory} {p : Nat × CellWord}
    (h : p ∈ Memory.write a blankCell m) : p ∈ m ∧ p.1 ≠ a := by
  simpa [Memory.write, Memory.erase] using h

/-! ## The invariant across the updates of the state -/

variable {cfg : Config} {s t : State cfg.pcW}

/-- The invariant outlives whatever leaves memory alone, keeps pc at most LEN and writes the fault status as
R191 says. -/
theorem State.Inv.of_same_memory (h : s.Inv cfg) (hm : t.mem = s.mem) (hl : t.len = s.len)
    (hp : t.pc.toNat ≤ s.len.toNat) (hload : t.runState ≠ .load)
    (hok : t.runState ≠ .fault → t.faultCause = .none ∧ t.faultAddr = 0)
    (hbad : t.runState = .fault → t.faultCause ≠ .none) : t.Inv cfg where
  memWf := hm ▸ h.memWf
  cellsBelowLen := hm ▸ hl ▸ h.cellsBelowLen
  lenLe := hl ▸ h.lenLe
  pcLe := hl ▸ hp
  noFaultStatus := hok
  faultStatus := hbad
  loadFresh := fun e => absurd e hload

theorem State.Inv.raise (h : s.Inv cfg) {c : FaultCause} (hc : c ≠ .none) (a : BitVec cfg.pcW) :
    (s.raise c a).Inv cfg :=
  h.of_same_memory rfl rfl h.pcLe nofun (fun e => absurd rfl e) fun _ => hc

theorem State.Inv.start (h : s.Inv cfg) (hs : s.runState = .load) : s.start.Inv cfg :=
  h.of_same_memory rfl rfl h.pcLe nofun (fun _ => h.noFaultStatus (by simp [hs])) nofun

theorem FaultCause.ne_none_of_ofMemory {c : FaultCause} (h : c.ofMemory) : c ≠ .none := by
  rintro rfl
  simp [FaultCause.ofMemory] at h

section Running

variable (h : s.Inv cfg) (hs : s.runState = .run)
include h hs

theorem State.Inv.status_of_run : s.faultCause = .none ∧ s.faultAddr = 0 := h.noFaultStatus (by simp [hs])

theorem State.Inv.halt : s.halt.Inv cfg :=
  h.of_same_memory rfl rfl h.pcLe nofun (fun _ => h.status_of_run hs) nofun

theorem State.Inv.writeReg (r : RegIdx) (v : Byte) : (s.writeReg r v).Inv cfg :=
  h.of_same_memory rfl rfl h.pcLe (by simp [hs]) (fun _ => h.status_of_run hs) (by simp [hs])

theorem State.Inv.emit (v : Byte) : (s.emit v).Inv cfg :=
  h.of_same_memory rfl rfl h.pcLe (by simp [hs]) (fun _ => h.status_of_run hs) (by simp [hs])

theorem State.Inv.advancePc (hp : s.pc < s.len) : s.advancePc.Inv cfg :=
  h.of_same_memory rfl rfl (by rw [State.advancePc_pc, pc_succ_toNat hp]; exact BitVec.lt_def.1 hp)
    (by simp [hs]) (fun _ => h.status_of_run hs) (by simp [hs])

theorem execIn_keeps_inv {mode : OverflowMode} {i : Instr} (hx : execIn mode i s = .next t) : t.Inv cfg := by
  rcases execIn_next hx with ⟨_, _, ⟨r, v, rfl⟩ | ⟨_, r, _, _, rfl⟩⟩ | ⟨_, rfl⟩ | ⟨_, _, rfl⟩ | ⟨_, _, _, _, rfl⟩
  · exact h.writeReg hs r v
  · exact h.emit hs _
  · exact h.halt hs
  · exact h.raise (by simp) _
  · exact h.raise (by simp) _

end Running

theorem stepIn_keeps_inv (h : s.Inv cfg) (hx : stepIn cfg s = .next t) : t.Inv cfg := by
  obtain ⟨hs, ⟨_, rfl⟩ | ⟨_, r, hu, rfl⟩ | ⟨hp, i, _, hx⟩⟩ := stepIn_next hx
  · exact h.halt hs
  · obtain ⟨_, _, hc | hc⟩ := useAsInstr_error hu <;> exact h.raise (by simp [hc]) _
  · exact execIn_keeps_inv (h.advancePc hs hp) hs hx

/-! ## The invariant across the memory primitives, in LOAD (R36, R37, R39, R41) -/

/-- What a primitive that completes in LOAD must show: the new memory's form, its bounds and that of LEN. -/
theorem State.Inv.of_load (h : s.Inv cfg) (hs : s.runState = .load)
    (ht : t = { s with mem := t.mem, len := t.len }) (hwf : Memory.wf t.mem)
    (hcells : ∀ p ∈ t.mem, p.1 < t.len.toNat) (hlen : t.len.toNat ≤ cfg.memCells) :
    t.Inv cfg ∧ t.runState = .load := by
  obtain ⟨hpc, hfresh⟩ := h.loadFresh hs
  rw [ht]
  exact ⟨⟨hwf, hcells, hlen, by simp [hpc], h.noFaultStatus, h.faultStatus, fun _ => ⟨hpc, hfresh⟩⟩, hs⟩

theorem memAppend_keeps_inv {w : CellWord} (h : s.Inv cfg) (hs : s.runState = .load)
    (e : memAppend cfg w s = .ok t) : t.Inv cfg ∧ t.runState = .load := by
  have hwf := memAppend_wf h.memWf e
  obtain ⟨hroom, rfl⟩ := memAppend_ok e
  have hlt : s.len.toNat < cfg.memCells := Nat.lt_of_le_of_ne h.lenLe hroom
  have hsucc := len_succ_toNat hlt
  refine h.of_load hs rfl hwf (fun p hp => ?_) ?_ <;> rw [State.setLen_len, hsucc]
  · rcases Memory.mem_write hp with rfl | hp
    · exact Nat.lt_succ_self _
    · exact Nat.lt_succ_of_lt (h.cellsBelowLen p hp)
  · exact hlt

theorem memPop_keeps_inv {i : Instr} (h : s.Inv cfg) (hs : s.runState = .load)
    (e : memPop s = .ok (t, i)) : t.Inv cfg ∧ t.runState = .load := by
  have hwf := memPop_wf h.memWf e
  obtain ⟨hl, -, rfl⟩ := memPop_ok e
  have hpred := len_pred_toNat hl
  have hle := h.lenLe
  refine h.of_load hs rfl hwf (fun p hp => ?_) ?_ <;> rw [State.setLen_len]
  · obtain ⟨hp, hne⟩ := Memory.mem_write_blank hp
    have hlt := h.cellsBelowLen p hp
    omega
  · omega

theorem memWrite_keeps_inv {a : BitVec cfg.pcW} {v : Byte} (h : s.Inv cfg) (hs : s.runState = .load)
    (e : memWrite a v s = .ok t) : t.Inv cfg ∧ t.runState = .load := by
  have hwf := memWrite_wf h.memWf e
  obtain ⟨ha, rfl⟩ := memWrite_ok e
  refine h.of_load hs rfl hwf (fun p hp => ?_) h.lenLe
  rcases Memory.mem_write hp with rfl | hp
  · exact BitVec.lt_def.1 ha
  · exact h.cellsBelowLen p hp

theorem resetAt_inv (cfg : Config) : (State.resetAt cfg.pcW).Inv cfg where
  memWf := State.resetAt_mem_wf cfg.pcW
  cellsBelowLen := nofun
  lenLe := by simp [State.resetAt]
  pcLe := Nat.le_refl _
  noFaultStatus := fun _ => ⟨rfl, rfl⟩
  faultStatus := nofun
  loadFresh := fun _ => ⟨rfl, rfl, rfl⟩

/-- H_RESET leaves the reset state. -/
theorem eq_resetAt_of_hostStepIn_reset (h : (hostStepIn cfg .reset s).state? = some t) :
    t = State.resetAt cfg.pcW := by
  rw [hostStepIn_reset] at h
  cases h
  rfl

theorem hostStepIn_keeps_inv {op : HostOp cfg.pcW} (h : s.Inv cfg)
    (e : (hostStepIn cfg op s).state? = some t) : t.Inv cfg := by
  by_cases ho : op = .reset
  · subst ho
    rw [eq_resetAt_of_hostStepIn_reset e]
    exact resetAt_inv cfg
  · have hs := load_of_hostStepIn ho e
    exact hostStepIn_rule (P := fun u => u.Inv cfg ∧ u.runState = .load) (Q := State.Inv cfg)
      (append := fun _ _ _ hu => memAppend_keeps_inv hu.1 hu.2)
      (pop := fun _ _ _ hu => memPop_keeps_inv hu.1 hu.2)
      (write := fun _ _ _ _ hu => memWrite_keeps_inv hu.1 hu.2)
      (start := fun _ hu => hu.1.start hu.2)
      (stay := fun _ hu => hu.1)
      (raise := fun _ _ a hu hc => hu.1.raise (FaultCause.ne_none_of_ofMemory hc) a) ho hs ⟨h, hs⟩ e

/-! ## The statements -/

/-- Settles O45: by induction on the lists, whose first pairs must be the same. -/
theorem canonicalMemoryIsUnique : Obligations.CanonicalMemoryIsUnique :=
  fun _ _ => Memory.eq_of_read_eq

/-- Settles O46: the reset state's memory is empty, its counters and status 0. -/
theorem resetMeetsTheInvariant : Obligations.ResetMeetsTheInvariant :=
  ⟨resetAt_inv Config.core, resetAt_inv⟩

/-- Settles O47: pc advances only below LEN, memory stays, and the fault status is written at fault entry alone. -/
theorem stepKeepsTheInvariant : Obligations.StepKeepsTheInvariant :=
  ⟨fun s _ h e => stepIn_keeps_inv h ((stepIn_core s).trans e), fun _ _ _ => stepIn_keeps_inv⟩

/-- Settles O48: an append needs room, a pop drops the cell it removes, a write stays below LEN. -/
theorem hostOperationsKeepTheInvariant : Obligations.HostOperationsKeepTheInvariant :=
  fun _ _ _ _ => hostStepIn_keeps_inv

end Sys2Proof.Machine

/-! PROOFS. Whole runs (40_fetch_execute.md section 2, 70_reset_and_hazards.md sections 2 and 3): the run is a straight
line of passed cells, both agents keep that, and pc counts the steps down to an end. -/

namespace Sys2Proof.Machine

/-! ## Passed cells (R97, R101) -/

section Passed

variable {pcW : Nat} {s t : State pcW} {n : Nat}

theorem State.passedCell_of_mem_eq (hm : t.mem = s.mem) (h : s.passedCell n) : t.passedCell n := by
  rwa [State.passedCell, hm]

/-- One more passed cell extends the line. -/
theorem State.passed_succ (hm : t.mem = s.mem) (h : ∀ a, a < n → s.passedCell a) (hn : s.passedCell n) :
    ∀ a, a < n + 1 → t.passedCell a := by
  intro a ha
  rcases Nat.lt_succ_iff_lt_or_eq.1 ha with ha | rfl
  · exact State.passedCell_of_mem_eq hm (h a ha)
  · exact State.passedCell_of_mem_eq hm hn

theorem State.straight_of_run (hr : s.runState = .run) :
    s.Straight ↔ ∀ a, a < s.pc.toNat → s.passedCell a := by
  simp [State.Straight, hr]

theorem State.straight_of_halted (hr : s.runState = .halted) : s.Straight ↔
    (s.len ≤ s.pc ∧ ∀ a, a < s.pc.toNat → s.passedCell a) ∨
      ∃ n, s.pc.toNat = n + 1 ∧ Memory.read n s.mem = 0x890000#24 ∧ ∀ a, a < n → s.passedCell a := by
  simp [State.Straight, hr]

theorem State.straight_of_fault (hr : s.runState = .fault) :
    s.Straight ↔ ∀ a, a + 1 < s.pc.toNat → s.passedCell a := by
  simp [State.Straight, hr]

/-- At pc 0 nothing has been passed, so any state but a halted one is straight. -/
theorem State.straight_of_pc_zero (hp : s.pc = 0) (hr : s.runState ≠ .halted) : s.Straight := by
  cases hs : s.runState with
  | load => simp [State.Straight, hs]
  | run => simp [State.straight_of_run hs, hp]
  | halted => exact absurd hs hr
  | fault => simp [State.straight_of_fault hs, hp]

/-- The one word of HLT (R64, R141). -/
theorem eq_hlt_word {w : CellWord} (h : decodeCell w = .instr .hlt) : w = 0x890000#24 :=
  (encode_of_decodeCell h).symm

/-- A passed cell does not hold the HLT word. -/
theorem State.passedCell_ne_hlt_word (h : s.passedCell n) : Memory.read n s.mem ≠ 0x890000#24 := by
  obtain ⟨i, hd, hi, -⟩ := h
  intro hw
  rw [hw, decodeCell_hlt_word] at hd
  cases hd
  exact hi rfl

end Passed

variable {cfg : Config} {s t : State cfg.pcW}

/-! ## A step of a run, by the state it ends in -/

/-- What a step that fetched and executed `i` leaves, whatever `i` is. -/
structure Executed (cfg : Config) (i : Instr) (s t : State cfg.pcW) : Prop where
  fetched : s.pc < s.len
  decoded : decodeCell (s.cell s.pc) = .instr i
  pc : t.pc.toNat = s.pc.toNat + 1
  len : t.len = s.len
  mem : t.mem = s.mem

/-- The five ends of a running step: the end of memory, a fetch fault, a step on, an HLT, an execution fault. -/
theorem stepIn_ends (h : stepIn cfg s = .next t) : s.runState = .run ∧
    ((s.len ≤ s.pc ∧ t = s.halt) ∨
      (s.pc < s.len ∧ (∀ i, decodeCell (s.cell s.pc) ≠ .instr i) ∧ ∃ c a, t = s.raise c a) ∨
      ∃ i, Executed cfg i s t ∧
        ((i ≠ .hlt ∧ ¬ faultsAt cfg.overflowMode i s ∧ t.runState = .run) ∨
          (i = .hlt ∧ t.runState = .halted) ∨
          (i ≠ .hlt ∧ faultsAt cfg.overflowMode i s ∧ t.runState = .fault))) := by
  obtain ⟨hs, hend | ⟨hp, r, hu, rfl⟩ | ⟨hp, i, hd, hx⟩⟩ := stepIn_next h
  · exact ⟨hs, .inl hend⟩
  · exact ⟨hs, .inr (.inl ⟨hp, (useAsInstr_error hu).1, _, _, rfl⟩)⟩
  · obtain ⟨hlen, hpc, hmem⟩ := execIn_keeps_memory hx
    have hexec : Executed cfg i s t :=
      ⟨hp, hd, by rw [hpc, State.advancePc_pc, pc_succ_toNat hp], hlen, hmem⟩
    refine ⟨hs, .inr (.inr ⟨i, hexec, ?_⟩)⟩
    rcases execIn_status (s := s.advancePc) hs hx with hrun | hhlt | ⟨hi, hv, ht, _⟩ | ⟨hi, hm, hr, ht, _⟩
    · exact .inl hrun
    · exact .inr (.inl hhlt)
    · exact .inr (.inr ⟨hi, .inl hv, ht⟩)
    · exact .inr (.inr ⟨hi, .inr ⟨hm, hr⟩, ht⟩)

theorem Executed.passed {i : Instr} (h : Executed cfg i s t) (hi : i ≠ .hlt)
    (hf : ¬ faultsAt cfg.overflowMode i s) : s.passedCell s.pc.toNat :=
  ⟨i, h.decoded, hi, by simpa using (not_or.1 hf).1⟩

theorem stepIn_keeps_straight (h : s.Straight) (hx : stepIn cfg s = .next t) : t.Straight := by
  obtain ⟨hs, ⟨hp, rfl⟩ | ⟨_, _, c, a, rfl⟩ | ⟨i, he, hends⟩⟩ := stepIn_ends hx <;>
    rw [State.straight_of_run hs] at h
  · exact (State.straight_of_halted rfl).2 (.inl ⟨hp, h⟩)
  · exact (State.straight_of_fault rfl).2 fun k hk => h k (Nat.lt_of_succ_lt hk)
  · rcases hends with ⟨hi, hf, ht⟩ | ⟨rfl, ht⟩ | ⟨_, _, ht⟩
    · rw [State.straight_of_run ht, he.pc]
      exact State.passed_succ he.mem h (he.passed hi hf)
    · rw [State.straight_of_halted ht]
      exact .inr ⟨s.pc.toNat, he.pc, he.mem ▸ eq_hlt_word he.decoded,
        fun k hk => State.passedCell_of_mem_eq he.mem (h k hk)⟩
    · rw [State.straight_of_fault ht, he.pc]
      exact fun k hk => State.passedCell_of_mem_eq he.mem (h k (Nat.lt_of_succ_lt_succ hk))

/-- Every host operation leaves pc at 0 and the run not halted. -/
theorem hostStepIn_straight {op : HostOp cfg.pcW} (h : s.Inv cfg)
    (e : (hostStepIn cfg op s).state? = some t) : t.Straight := by
  by_cases ho : op = .reset
  · subst ho
    rw [eq_resetAt_of_hostStepIn_reset e]
    exact State.straight_of_pc_zero rfl nofun
  · have hs := load_of_hostStepIn ho e
    exact hostStepIn_rule (P := fun u => u.pc = 0 ∧ u.runState = .load) (Q := State.Straight)
      (append := fun _ _ _ hu ha => by obtain ⟨_, rfl⟩ := memAppend_ok ha; exact hu)
      (pop := fun _ _ _ hu hp => by obtain ⟨_, _, rfl⟩ := memPop_ok hp; exact hu)
      (write := fun _ _ _ _ hu hw => by obtain ⟨_, rfl⟩ := memWrite_ok hw; exact hu)
      (start := fun _ hu => State.straight_of_pc_zero hu.1 nofun)
      (stay := fun _ hu => State.straight_of_pc_zero hu.1 (by simp [hu.2]))
      (raise := fun _ _ _ hu _ => State.straight_of_pc_zero hu.1 nofun) ho hs ⟨(h.loadFresh hs).1, hs⟩ e

theorem Reachable.invariants (h : Reachable cfg s) : s.Inv cfg ∧ s.Straight := by
  induction h with
  | reset => exact ⟨resetAt_inv cfg, State.straight_of_pc_zero rfl nofun⟩
  | core _ e ih => exact ⟨stepIn_keeps_inv ih.1 e, stepIn_keeps_straight ih.2 e⟩
  | host _ op e ih => exact ⟨hostStepIn_keeps_inv ih.1 e, hostStepIn_straight ih.1 e⟩

/-! ## The end of a run (R97) -/

theorem runIn_succ (hx : stepIn cfg s = .next t) (k : Nat) :
    (coreIn cfg).run (k + 1) s = (coreIn cfg).run k t := run_succ (M := coreIn cfg) hx

theorem runIn_one (hx : stepIn cfg s = .next t) : (coreIn cfg).run 1 s = .next t := runIn_succ hx 0

/-- A running step ends the run, or goes on one cell further. -/
theorem ended_or_on_of_stepIn (h : stepIn cfg s = .next t) :
    t.ended ∨ (t.runState = .run ∧ ∃ i, Executed cfg i s t) := by
  obtain ⟨_, ⟨_, rfl⟩ | ⟨_, _, _, _, rfl⟩ | ⟨i, he, ⟨_, _, ht⟩ | ⟨_, ht⟩ | ⟨_, _, ht⟩⟩⟩ := stepIn_ends h
  · exact .inl (.inl rfl)
  · exact .inl (.inr rfl)
  · exact .inr ⟨ht, i, he⟩
  · exact .inl (.inl ht)
  · exact .inl (.inr ht)

theorem run_ends (hs : s.runState = .run) : ∃ (k : Nat) (t : State cfg.pcW),
    k ≤ s.len.toNat - s.pc.toNat + 1 ∧ (coreIn cfg).run k s = .next t ∧ t.ended := by
  induction hn : s.len.toNat - s.pc.toNat generalizing s with
  | zero =>
    refine ⟨1, s.halt, Nat.le_refl _, ?_, .inl rfl⟩
    exact runIn_one (stepIn_of_end hs (BitVec.le_def.2 (by omega)))
  | succ n ih =>
    obtain ⟨u, hu⟩ := stepIn_total hs
    rcases ended_or_on_of_stepIn hu with hend | ⟨hrun, i, he⟩
    · exact ⟨1, u, by omega, runIn_one hu, hend⟩
    · obtain ⟨k, t, hk, hkt, hend⟩ := ih hrun (by rw [he.len, he.pc]; omega)
      exact ⟨k + 1, t, by omega, (runIn_succ hu k).trans hkt, hend⟩

/-! ## The statements -/

/-- Settles O49: a step passes the cell at pc, halts at it or faults at it, and every earlier cell stays as it
was. -/
theorem stepKeepsTheRunStraight : Obligations.StepKeepsTheRunStraight :=
  ⟨fun s _ h e => stepIn_keeps_straight h ((stepIn_core s).trans e), fun _ _ _ => stepIn_keeps_straight⟩

/-- Settles O50: by induction on how the state was reached. -/
theorem reachableStatesMeetTheInvariants : Obligations.ReachableStatesMeetTheInvariants :=
  fun _ _ => Reachable.invariants

/-- Settles O51: an HLT stopped right behind its word; at the end of memory the cell behind pc was passed, so it
is no HLT. -/
theorem haltByHltIsReadFromTheLastCell : Obligations.HaltByHltIsReadFromTheLastCell := by
  intro cfg s t hreach h ht
  obtain ⟨hs, ⟨hp, rfl⟩ | ⟨_, _, _, _, rfl⟩ | ⟨i, he, ⟨_, _, hrun⟩ | ⟨rfl, _⟩ | ⟨_, _, hfault⟩⟩⟩ := stepIn_ends h
  · have hpassed := (State.straight_of_run hs).1 hreach.invariants.2
    refine ⟨fun ⟨hlt, _⟩ => absurd hp (BitVec.not_le.2 hlt), fun ⟨n, hn, hw⟩ => ?_⟩
    have hpn : n < s.pc.toNat := Nat.lt_of_succ_le hn.ge
    exact absurd hw (State.passedCell_ne_hlt_word (hpassed n hpn))
  · cases ht
  · simp [hrun] at ht
  · exact iff_of_true ⟨he.fetched, he.decoded⟩ ⟨s.pc.toNat, he.pc, he.mem ▸ eq_hlt_word he.decoded⟩
  · simp [hfault] at ht

/-- Settles O52: pc rises to LEN one by one, so LEN - pc falls until the run ends. -/
theorem everyRunEnds : Obligations.EveryRunEnds := by
  refine ⟨fun s hs => ?_, fun _ _ => run_ends⟩
  simp only [core_run_eq]
  exact run_ends (cfg := Config.core) hs

end Sys2Proof.Machine

/-! PROOFS. What a run depends on and when it halts (40_fetch_execute.md section 2, 70_reset_and_hazards.md section 2):
agreeing states step alike, and a run halts exactly when every cell it meets passes. -/

namespace Sys2Proof.Machine

variable {cfg : Config}

/-! ## Runs that have ended, cells that are instructions -/

/-- Outside RUN a run has no further step. -/
theorem run_succ_ne_next_of_not_run {s : State cfg.pcW} (hs : s.runState ≠ .run) {k : Nat} (t : State cfg.pcW) :
    (coreIn cfg).run (k + 1) s ≠ .next t := by
  intro h
  obtain ⟨u, hu, -⟩ := run_succ_next h
  exact stepIn_ne_next_of_not_run hs u hu

theorem decodeCell_of_useAsInstr {pcW : Nat} {w : CellWord} {a : BitVec pcW} {i : Instr}
    (h : useAsInstr w a = .ok i) : decodeCell w = .instr i := by
  rcases useAsInstr_cases w a with ⟨j, hd, e⟩ | ⟨_, e⟩ | ⟨_, _, e⟩ <;> rw [e] at h <;> cases h
  exact hd

/-! ## Agreeing states (R98) -/

section Agreeing

variable {s1 s2 : State cfg.pcW}

theorem State.Agrees.cell_pc (h : s1.Agrees s2) (hp : s1.pc < s1.len) : s1.cell s1.pc = s2.cell s2.pc := by
  rw [State.cell, State.cell, ← h.pc]
  exact h.cells _ (BitVec.lt_def.1 hp)

/-- Where execution sees the same registers and leaves pc, LEN and memory alone, agreement lasts. -/
theorem State.Agrees.execIn_alike (h : s1.Agrees s2) (hs : s1.runState = .run) (mode : OverflowMode) (i : Instr) :
    ∃ (t1 t2 : State cfg.pcW) (out : List Byte), execIn mode i s1 = .next t1 ∧ execIn mode i s2 = .next t2 ∧
      t1.Agrees t2 ∧ t1.outlog = s1.outlog ++ out ∧ t2.outlog = s2.outlog ++ out := by
  obtain ⟨t1, t2, e1, e2, out, hregs, hrun, hout1, hout2, hfault⟩ :=
    execIn_sameOutcome h.regs hs (h.runState ▸ hs) mode i
  obtain ⟨hlen1, hpc1, hmem1⟩ := execIn_keeps_memory e1
  obtain ⟨hlen2, hpc2, hmem2⟩ := execIn_keeps_memory e2
  refine ⟨t1, t2, out, e1, e2, ⟨hregs, ?_, ?_, hrun, ?_, fun ht => ?_⟩, hout1, hout2⟩
  · rw [hpc1, hpc2, h.pc]
  · rw [hlen1, hlen2, h.len]
  · rw [hlen1, hmem1, hmem2]
    exact h.cells
  · obtain ⟨hcause, haddr1, haddr2⟩ := hfault ht
    exact ⟨hcause, by rw [haddr1, haddr2, h.pc]⟩

theorem State.Agrees.advancePc (h : s1.Agrees s2) : s1.advancePc.Agrees s2.advancePc :=
  ⟨h.regs, congrArg (· + 1) h.pc, h.len, h.runState, h.cells, h.fault⟩

theorem State.Agrees.stepIn_alike (h : s1.Agrees s2) (hs : s1.runState = .run) :
    ∃ (t1 t2 : State cfg.pcW) (out : List Byte), stepIn cfg s1 = .next t1 ∧ stepIn cfg s2 = .next t2 ∧
      t1.Agrees t2 ∧ t1.outlog = s1.outlog ++ out ∧ t2.outlog = s2.outlog ++ out := by
  have hs2 : s2.runState = .run := h.runState ▸ hs
  have hnil (s : State cfg.pcW) : s.outlog = s.outlog ++ [] := (List.append_nil _).symm
  by_cases hp : s1.len ≤ s1.pc
  · exact ⟨_, _, [], stepIn_of_end hs hp, stepIn_of_end hs2 (by rwa [← h.len, ← h.pc]),
      ⟨h.regs, h.pc, h.len, rfl, h.cells, nofun⟩, hnil s1, hnil s2⟩
  · have hp1 : s1.pc < s1.len := BitVec.not_le.1 hp
    have hp2 : s2.pc < s2.len := by rwa [← h.len, ← h.pc]
    have hcell := h.cell_pc hp1
    cases hu : useAsInstr (s1.cell s1.pc) s1.pc with
    | error r =>
      have hu2 : useAsInstr (s2.cell s2.pc) s2.pc = .error r := by rw [← hcell, ← h.pc, hu]
      exact ⟨_, _, [], stepIn_of_error hs hp1 hu, stepIn_of_error hs2 hp2 hu2,
        ⟨h.regs, h.pc, h.len, rfl, h.cells, fun _ => ⟨rfl, rfl⟩⟩, hnil s1, hnil s2⟩
    | ok i =>
      have hd := decodeCell_of_useAsInstr hu
      rw [stepIn_of_instr hs hp1 hd, stepIn_of_instr hs2 hp2 (hcell ▸ hd)]
      exact h.advancePc.execIn_alike hs _ i

/-- Agreeing states run alike for any number of steps, and stop together. -/
theorem State.Agrees.run_alike (h : s1.Agrees s2) (k : Nat) :
    (∃ (t1 t2 : State cfg.pcW) (out : List Byte),
      (coreIn cfg).run k s1 = .next t1 ∧ (coreIn cfg).run k s2 = .next t2 ∧ t1.Agrees t2 ∧
      t1.outlog = s1.outlog ++ out ∧ t2.outlog = s2.outlog ++ out) ∨
    ((∀ t, (coreIn cfg).run k s1 ≠ .next t) ∧ ∀ t, (coreIn cfg).run k s2 ≠ .next t) := by
  induction k generalizing s1 s2 with
  | zero => exact .inl ⟨s1, s2, [], rfl, rfl, h, (List.append_nil _).symm, (List.append_nil _).symm⟩
  | succ k ih =>
    by_cases hs : s1.runState = .run
    · obtain ⟨u1, u2, out, e1, e2, hu, hout1, hout2⟩ := h.stepIn_alike hs
      rw [runIn_succ e1, runIn_succ e2]
      refine (ih hu).imp_left fun ⟨t1, t2, out', r1, r2, ht, hout1', hout2'⟩ =>
        ⟨t1, t2, out ++ out', r1, r2, ht, ?_, ?_⟩
      · rw [hout1', hout1, List.append_assoc]
      · rw [hout2', hout2, List.append_assoc]
    · have hs2 : s2.runState ≠ .run := h.runState ▸ hs
      exact .inr ⟨fun t ht => run_succ_ne_next_of_not_run hs t ht,
        fun t ht => run_succ_ne_next_of_not_run hs2 t ht⟩

end Agreeing

/-! ## Runs that halt (R97, R213) -/

section Halting

variable {s t u : State cfg.pcW} {i : Instr} {k : Nat}

/-- The run ends in HALTED within the bound on its length. -/
def State.HaltsIn (cfg : Config) (s : State cfg.pcW) : Prop :=
  ∃ (k : Nat) (t : State cfg.pcW), k ≤ s.len.toNat - s.pc.toNat + 1 ∧
    (coreIn cfg).run k s = .next t ∧ t.runState = .halted

/-- Every cell from pc up to the first HLT or the end of memory is an instruction with valid indices. -/
def State.CellsPass {pcW : Nat} (s : State pcW) : Prop :=
  ∀ a : BitVec pcW, s.pc ≤ a → a < s.len →
    (∀ b : BitVec pcW, s.pc ≤ b → b < a → decodeCell (s.cell b) ≠ .instr .hlt) →
    ∃ i, decodeCell (s.cell a) = .instr i ∧ i.regsValid = true

/-- No instruction that the run meets at pc has an exact result outside the byte. -/
def State.ResultsFit (cfg : Config) (s : State cfg.pcW) : Prop :=
  ∀ (k : Nat) (u : State cfg.pcW) (i : Instr), (coreIn cfg).run k s = .next u → u.runState = .run →
    u.pc < u.len → decodeCell (u.cell u.pc) = .instr i → ¬ resultLeavesByte i u

/-- A state of the run of `s` is `s` or one of the run of the state `s` steps to. -/
theorem eq_or_run_of_run (hx : stepIn cfg s = .next t) (h : (coreIn cfg).run k s = .next u) :
    u = s ∨ ∃ n, k = n + 1 ∧ (coreIn cfg).run n t = .next u := by
  cases k with
  | zero => cases h; exact .inl rfl
  | succ n => exact .inr ⟨n, rfl, (runIn_succ hx _).symm.trans h⟩

theorem eq_of_run_of_not_run (ht : t.runState ≠ .run) (h : (coreIn cfg).run k t = .next u) : u = t := by
  cases k with
  | zero => cases h; rfl
  | succ n => exact absurd h (run_succ_ne_next_of_not_run ht u)

/-- When a step ends the run, it halts exactly when that step does. -/
theorem haltsIn_iff_of_ended (hx : stepIn cfg s = .next t) (ht : t.runState ≠ .run) :
    s.HaltsIn cfg ↔ t.runState = .halted := by
  have hs := (stepIn_next hx).1
  constructor
  · rintro ⟨k, u, -, hu, hhalt⟩
    rcases eq_or_run_of_run hx hu with rfl | ⟨n, -, hn⟩
    · simp [hs] at hhalt
    · rwa [← eq_of_run_of_not_run ht hn]
  · exact fun h => ⟨1, t, by omega, runIn_one hx, h⟩

/-- A step that goes on passes the question on. -/
theorem haltsIn_iff_of_executed (hx : stepIn cfg s = .next t) (he : Executed cfg i s t) :
    s.HaltsIn cfg ↔ t.HaltsIn cfg := by
  have hs := (stepIn_next hx).1
  have hp := BitVec.lt_def.1 he.fetched
  unfold State.HaltsIn
  rw [he.pc, he.len]
  constructor
  · rintro ⟨k, u, hk, hu, hhalt⟩
    rcases eq_or_run_of_run hx hu with rfl | ⟨n, rfl, hn⟩
    · simp [hs] at hhalt
    · exact ⟨n, u, by omega, hn, hhalt⟩
  · rintro ⟨k, u, hk, hu, hhalt⟩
    exact ⟨k + 1, u, by omega, (runIn_succ hx _).trans hu, hhalt⟩

theorem resultsFit_of_not_run (ht : t.runState ≠ .run) : t.ResultsFit cfg := by
  intro k u i hu hr
  rw [eq_of_run_of_not_run ht hu] at hr
  exact absurd hr ht

theorem resultsFit_iff (hx : stepIn cfg s = .next t) : s.ResultsFit cfg ↔
    (s.pc < s.len → ∀ i, decodeCell (s.cell s.pc) = .instr i → ¬ resultLeavesByte i s) ∧ t.ResultsFit cfg := by
  constructor
  · exact fun h => ⟨fun hp i hd => h 0 s i rfl (stepIn_next hx).1 hp hd,
      fun k u i hu => h (k + 1) u i ((runIn_succ hx _).trans hu)⟩
  · rintro ⟨hnow, hlater⟩ k u i hu hr hp hd
    rcases eq_or_run_of_run hx hu with rfl | ⟨n, -, hn⟩
    · exact hnow hp i hd
    · exact hlater n u i hn hr hp hd

theorem resultsFit_iff_of_executed (hx : stepIn cfg s = .next t) (he : Executed cfg i s t) :
    s.ResultsFit cfg ↔ ¬ resultLeavesByte i s ∧ t.ResultsFit cfg := by
  simp [resultsFit_iff hx, he.fetched, he.decoded]

theorem cellsPass_of_end (hp : s.len ≤ s.pc) : s.CellsPass :=
  fun _ h1 h2 => absurd (BitVec.le_trans hp h1) (BitVec.not_le.2 h2)

/-- The cell at pc is the first of those that must pass. -/
theorem State.CellsPass.at_pc (h : s.CellsPass) (hp : s.pc < s.len) :
    ∃ i, decodeCell (s.cell s.pc) = .instr i ∧ i.regsValid = true :=
  h s.pc (BitVec.le_refl _) hp fun _ h1 h2 => absurd h1 (BitVec.not_le.2 h2)

theorem Executed.pc_le_iff (he : Executed cfg i s t) (a : BitVec cfg.pcW) : t.pc ≤ a ↔ s.pc < a := by
  rw [BitVec.le_def, BitVec.lt_def, he.pc, Nat.succ_le_iff]

theorem Executed.cell (he : Executed cfg i s t) (a : BitVec cfg.pcW) : t.cell a = s.cell a := by
  rw [State.cell, State.cell, he.mem]

/-- The cells pass when the one at pc does and, unless it is an HLT, the later ones do. -/
theorem cellsPass_iff_of_executed (he : Executed cfg i s t) :
    s.CellsPass ↔ i.regsValid = true ∧ (i ≠ .hlt → t.CellsPass) := by
  constructor
  · intro h
    obtain ⟨j, hd, hv⟩ := h.at_pc he.fetched
    cases he.decoded.symm.trans hd
    refine ⟨hv, fun hi a h1 h2 hb => ?_⟩
    have hpa := (he.pc_le_iff a).1 h1
    rw [he.cell]
    refine h a (BitVec.le_of_lt hpa) (he.len ▸ h2) fun b hb1 hb2 => ?_
    rcases Std.le_iff_lt_or_eq.1 hb1 with hlt | rfl
    · exact he.cell b ▸ hb b ((he.pc_le_iff b).2 hlt) hb2
    · simpa [he.decoded] using hi
  · rintro ⟨hv, hrest⟩ a h1 h2 hb
    rcases Std.le_iff_lt_or_eq.1 h1 with hlt | rfl
    · have hi : i ≠ .hlt := fun e => hb s.pc (BitVec.le_refl _) hlt (e ▸ he.decoded)
      have ha := hrest hi a ((he.pc_le_iff a).2 hlt) (he.len ▸ h2)
      simp only [he.cell, he.pc_le_iff] at ha
      exact ha fun b hb1 hb2 => hb b (BitVec.le_of_lt hb1) hb2
    · exact ⟨i, he.decoded, hv⟩

theorem haltsIn_iff (hs : s.runState = .run) :
    s.HaltsIn cfg ↔ s.CellsPass ∧ (cfg.overflowMode = .fault → s.ResultsFit cfg) := by
  induction hn : s.len.toNat - s.pc.toNat using Nat.strong_induction_on generalizing s with
  | _ n ih =>
    obtain ⟨t, hx⟩ := stepIn_total hs
    obtain ⟨-, ⟨hp, rfl⟩ | ⟨hp, hd, _, _, rfl⟩ | ⟨i, he, hends⟩⟩ := stepIn_ends hx
    · refine iff_of_true ((haltsIn_iff_of_ended hx nofun).2 rfl) ⟨cellsPass_of_end hp, fun _ => ?_⟩
      exact (resultsFit_iff hx).2 ⟨fun hlt => absurd hp (BitVec.not_le.2 hlt), resultsFit_of_not_run nofun⟩
    · refine iff_of_false (mt (haltsIn_iff_of_ended hx nofun).1 nofun) fun ⟨hcells, _⟩ => ?_
      obtain ⟨i, hi, -⟩ := hcells.at_pc hp
      exact hd i hi
    · rw [cellsPass_iff_of_executed he, resultsFit_iff_of_executed hx he]
      rcases hends with ⟨hi, hf, ht⟩ | ⟨rfl, ht⟩ | ⟨_, hf, ht⟩
      · have hp := BitVec.lt_def.1 he.fetched
        rw [haltsIn_iff_of_executed hx he, ih _ (by rw [he.len, he.pc]; omega) ht rfl]
        obtain ⟨hv, hr⟩ := not_or.1 hf
        exact ⟨fun ⟨hcells, hfit⟩ =>
            ⟨⟨by simpa using hv, fun _ => hcells⟩, fun hm => ⟨fun h => hr ⟨hm, h⟩, hfit hm⟩⟩,
          fun ⟨⟨_, hcells⟩, hfit⟩ => ⟨hcells hi, fun hm => (hfit hm).2⟩⟩
      · rw [haltsIn_iff_of_ended hx (by simp [ht])]
        refine iff_of_true ht ⟨⟨rfl, fun e => absurd rfl e⟩, fun hm => ⟨fun hr => ?_, ?_⟩⟩
        · exact not_faultsAt_hlt _ s (.inr ⟨hm, hr⟩)
        · exact resultsFit_of_not_run (by simp [ht])
      · rw [haltsIn_iff_of_ended hx (by simp [ht])]
        refine iff_of_false (by simp [ht]) fun ⟨⟨hv, _⟩, hfit⟩ => ?_
        rcases hf with hbad | ⟨hm, hr⟩
        · simp [hv] at hbad
        · exact (hfit hm).1 hr

end Halting

/-! ## The statements -/

/-- Settles O53: by induction on LEN - pc, the cell at pc being met now and the later ones by the rest of the run. -/
theorem faultFreeProgramsHalt : Obligations.FaultFreeProgramsHalt :=
  fun _ _ => haltsIn_iff

/-- Settles O56: the loop test, the fetch and the execution read nothing that agreeing states differ in. -/
theorem agreeingStatesStepAlike : Obligations.AgreeingStatesStepAlike :=
  ⟨fun s => (stepIn_core s).symm, fun _ _ _ => State.Agrees.stepIn_alike⟩

/-- Settles O54: in LOAD the invariant leaves only the memory image to differ in, and agreement lasts from step to
step. -/
theorem runDependsOnTheImageAlone : Obligations.RunDependsOnTheImageAlone := by
  refine ⟨fun cfg s1 s2 h1 h2 hl1 hl2 hlen hcells => ?_, fun cfg s1 s2 h _ => h.run_alike⟩
  obtain ⟨hpc1, hregs1, hout1⟩ := h1.loadFresh hl1
  obtain ⟨hpc2, hregs2, hout2⟩ := h2.loadFresh hl2
  exact ⟨s1.start, s2.start, hostStepIn_of_load hl1 .start, hostStepIn_of_load hl2 .start, rfl,
    ⟨hregs1.trans hregs2.symm, hpc1.trans hpc2.symm, hlen, rfl, hcells, nofun⟩, hout1, hout2⟩

end Sys2Proof.Machine

/-! PROOFS. The host's agent and the widths (44_host_ops.md, 70_reset_and_hazards.md section 2, 00_scope.md section 5):
when an operation raises and what it then leaves, the image a pushed program makes, and PC_W and ADDR_W as least
widths. -/

namespace Sys2Proof.Machine

variable {cfg : Config} {s t : State cfg.pcW}

/-! ## How a host operation ends (R150, R161) -/

/-- H_LOAD completes, or ends in a fault entry with a memory cause. -/
theorem hostLoad_ends (bytes : List Byte) (s : State cfg.pcW) :
    (∃ t, hostLoad cfg bytes s = .done t .unit) ∨
      ∃ (u : State cfg.pcW) (r : Raise cfg.pcW), r.cause.ofMemory ∧
        hostLoad cfg bytes s = .raised (u.raise r.cause r.addr) := by
  induction bytes generalizing s with
  | nil => exact .inl ⟨s, rfl⟩
  | cons v rest ih =>
    cases e : memAppendData cfg v s with
    | ok t =>
      rw [hostLoad, e]
      exact ih t
    | error r =>
      rw [hostLoad, e]
      exact .inr ⟨s, r, memAppend_error e, rfl⟩

/-- In LOAD an operation completes, or ends in a fault entry with a memory cause; but for H_LOAD on the state it
was given. -/
theorem hostInLoad_ends (op : HostOp cfg.pcW) (s : State cfg.pcW) :
    (∃ t v, hostInLoad cfg op s = .done t v) ∨
      ∃ (u : State cfg.pcW) (r : Raise cfg.pcW), r.cause.ofMemory ∧
        hostInLoad cfg op s = .raised (u.raise r.cause r.addr) ∧ ((∀ bytes, op ≠ .load bytes) → u = s) := by
  cases op with
  | reset | len | start => exact .inl ⟨_, _, rfl⟩
  | load bytes =>
    exact (hostLoad_ends bytes s).imp (fun ⟨t, h⟩ => ⟨t, _, h⟩)
      fun ⟨u, r, hc, h⟩ => ⟨u, r, hc, h, fun hne => absurd rfl (hne bytes)⟩
  | push i =>
    cases e : memAppendInstr cfg i s with
    | ok t => exact .inl ⟨_, _, hostPush_of_ok e⟩
    | error r => exact .inr ⟨s, r, memAppend_error e, hostPush_of_error e, fun _ => rfl⟩
  | pop =>
    cases e : memPop s with
    | ok p => exact .inl ⟨_, _, hostPop_of_ok e⟩
    | error r => exact .inr ⟨s, r, memPop_error e, hostPop_of_error e, fun _ => rfl⟩
  | read a =>
    cases e : memRead a s with
    | ok v => exact .inl ⟨_, _, hostRead_of_ok e⟩
    | error r => exact .inr ⟨s, r, memRead_error e, hostRead_of_error e, fun _ => rfl⟩
  | write a v =>
    cases e : memWrite a v s with
    | ok t => exact .inl ⟨_, _, hostWrite_of_ok e⟩
    | error r => exact .inr ⟨s, r, memWrite_error e, hostWrite_of_error e, fun _ => rfl⟩
  | fetch a =>
    cases e : memFetch a s with
    | ok i => exact .inl ⟨_, _, hostFetch_of_ok e⟩
    | error r => exact .inr ⟨s, r, memFetch_error e, hostFetch_of_error e, fun _ => rfl⟩

/-! ## What the host never writes (R12) -/

/-- The part of the state that no host operation but H_RESET writes. -/
def State.HostFrame {pcW : Nat} (s t : State pcW) : Prop := t.regs = s.regs ∧ t.pc = s.pc ∧ t.outlog = s.outlog

theorem hostStepIn_hostFrame {op : HostOp cfg.pcW} (ho : op ≠ .reset)
    (h : (hostStepIn cfg op s).state? = some t) : s.HostFrame t :=
  hostStepIn_rule (P := s.HostFrame) (Q := s.HostFrame)
    (append := fun _ _ _ hu e => by obtain ⟨_, rfl⟩ := memAppend_ok e; exact hu)
    (pop := fun _ _ _ hu e => by obtain ⟨_, _, rfl⟩ := memPop_ok e; exact hu)
    (write := fun _ _ _ _ hu e => by obtain ⟨_, rfl⟩ := memWrite_ok e; exact hu)
    (start := fun _ hu => hu) (stay := fun _ hu => hu) (raise := fun _ _ _ hu _ => hu)
    ho (load_of_hostStepIn ho h) ⟨rfl, rfl, rfl⟩ h

/-! ## A push undone by a pop (R154) -/

/-- In canonical form, blanking a cell that was not listed before it was stored to gives the memory back. -/
theorem Memory.write_blank_write {a : Nat} {m : Memory} (h : Memory.wf m) (ha : ∀ p ∈ m, p.1 ≠ a) (w : CellWord) :
    Memory.write a blankCell (Memory.write a w m) = m := by
  refine Memory.eq_of_read_eq (Memory.write_wf (Memory.write_wf h)) h fun b => ?_
  by_cases hb : a = b
  · rw [← hb, Memory.read_write_same, Memory.read_of_unlisted ha]
  · rw [Memory.read_write_other _ _ _ _ hb, Memory.read_write_other _ _ _ _ hb]

theorem State.setCell_setLen_undo (h : s.Inv cfg) (w : CellWord) :
    (((s.setCell s.len w).setLen (s.len + 1)).setCell s.len blankCell).setLen s.len = s := by
  have hmem := Memory.write_blank_write h.memWf (fun p hp => Nat.ne_of_lt (h.cellsBelowLen p hp)) w
  exact State.eq_of_fields rfl rfl hmem rfl rfl rfl rfl rfl

/-- A pop after the append of an instruction's word answers the instruction and the state before. -/
theorem memPop_of_memAppend {i : Instr} (h : s.Inv cfg) (e : memAppend cfg (encode i) s = .ok t) :
    memPop t = .ok (s, i) := by
  obtain ⟨hroom, rfl⟩ := memAppend_ok e
  have hsucc := len_succ_toNat (Nat.lt_of_le_of_ne h.lenLe hroom)
  have hne : s.len + 1 ≠ 0 := fun e => by rw [e] at hsucc; exact absurd hsucc (by simp)
  have hback : s.len + 1 - 1 = s.len := BitVec.add_sub_cancel s.len 1
  have hpop := memPop_of_instr (s := (s.setCell s.len (encode i)).setLen (s.len + 1)) (i := i) hne
    (by rw [State.setLen_len, hback, State.setLen_cell, State.cell_setCell_same, decodeCell_encode])
  rwa [State.setLen_len, hback, State.setCell_setLen_undo h] at hpop

theorem hostPush_done {b : Body} {v : HostValue cfg.pcW} (h : hostPush cfg b s = .done t v) :
    memAppendInstr cfg b s = .ok t := by
  unfold hostPush at h
  split at h <;> rename_i e <;> cases h
  exact e

/-! ## The image of a pushed program (R46, R213) -/

/-- Pushes that all fit append the words of their instructions, and the host goes on from there. -/
theorem hostRun_push {prog : List Instr} (hs : s.runState = .load)
    (h : s.len.toNat + prog.length ≤ cfg.memCells) (rest : List (HostOp cfg.pcW)) :
    ∃ t, State.Appends (prog.map encode) s t ∧
      hostRun cfg (prog.map (fun i => .push i.body) ++ rest) s = hostRun cfg rest t := by
  induction prog generalizing s with
  | nil => exact ⟨s, .nil s, rfl⟩
  | cons i is ih =>
    rw [List.length_cons] at h
    have hroom : s.len.toNat < cfg.memCells := by omega
    have hi := memAppend_of_lt hroom (encode i)
    have hsucc := len_succ_toNat hroom
    obtain ⟨t, ht, hrun⟩ := ih (s := (s.setCell s.len (encode i)).setLen (s.len + 1)) hs
      (by rw [State.setLen_len, hsucc]; omega)
    refine ⟨t, .cons hi hroom ht, ?_⟩
    rw [List.map_cons, List.cons_append, hostRun, hostStepIn_of_load hs, hostInLoad, hostPush_of_ok hi]
    exact hrun

/-! ## The statements -/

/-- Settles O33: in LOAD every operation ends, and H_RESET ends everywhere. -/
theorem hostActsOnlyInLoad : Obligations.HostActsOnlyInLoad := by
  intro cfg s op
  refine ⟨fun h => ⟨?_, fun hs => ?_⟩, fun ⟨ho, hs⟩ => hostStepIn_of_not_load ho hs⟩
  · rintro rfl
    rw [hostStepIn_reset] at h
    cases h
  · rw [hostStepIn_of_load hs] at h
    rcases hostInLoad_ends op s with ⟨_, _, e⟩ | ⟨_, _, _, e, _⟩ <;> rw [e] at h <;> cases h

/-- Settles O37: the pop reads the pushed word back and blanks its cell, and the canonical form has one memory that
reads so. -/
theorem pushThenPopRestoresTheState : Obligations.PushThenPopRestoresTheState := by
  intro cfg s t i hinv hs h
  rw [hostStepIn_of_load hs] at h
  have happ : memAppend cfg (encode i) s = .ok t := hostPush_done h
  rw [hostStepIn_of_load (memAppend_keeps_inv hinv hs happ).2]
  exact hostPop_of_ok (memPop_of_memAppend hinv happ)

/-- Settles O42: the memory primitives, the start and the fault entry write none of the three. -/
theorem hostWritesNoRegister : Obligations.HostWritesNoRegister :=
  fun _ _ _ _ => hostStepIn_hostFrame

/-- Settles O43: an operation raises only in LOAD, by the fault entry of its primitive. -/
theorem raisingHostOperationEntersFault : Obligations.RaisingHostOperationEntersFault := by
  intro cfg op s t h
  have ho : op ≠ .reset := by
    rintro rfl
    rw [hostStepIn_reset] at h
    cases h
  rw [hostStepIn_of_load (load_of_hostStepIn ho (t := t) (by rw [h]; rfl))] at h
  rcases hostInLoad_ends op s with ⟨_, _, e⟩ | ⟨u, r, hc, e, hu⟩ <;> rw [e] at h <;> cases h
  exact ⟨rfl, hc, fun hne => by rw [hu hne]; exact ⟨rfl, rfl⟩⟩

/-- Settles O44: the pushes append the program's words from address 0 on, and the start writes RUNSTATE alone. -/
theorem pushedProgramOccupiesItsLines : Obligations.PushedProgramOccupiesItsLines := by
  intro cfg prog hfit
  have hlen0 : (State.resetAt cfg.pcW).len.toNat = 0 := by simp [State.resetAt]
  obtain ⟨t, ht, hrun⟩ := hostRun_push (prog := prog) (s := State.resetAt cfg.pcW) rfl (by omega) [.start]
  have hload : t.runState = .load := by rw [ht.frame]; rfl
  have hpc : t.pc = 0 := by rw [ht.frame]; rfl
  refine ⟨t.start, ?_, rfl, hpc, ?_, fun k i hk => ?_⟩
  · rw [hrun, hostRun, hostStepIn_of_load hload]
    rfl
  · rw [State.start_len, ht.len, hlen0, List.length_map, Nat.zero_add]
  · obtain ⟨hlt, rfl⟩ := List.getElem?_eq_some_iff.1 hk
    have hcell := ht.newCells k (by rwa [List.length_map])
    rw [hlen0, Nat.zero_add, List.getElem_map] at hcell
    rw [State.start_mem, hcell, decodeCell_encode]

end Sys2Proof.Machine

namespace Sys2Proof

/-! ## The widths as least widths (R4) -/

theorem Config.memCells_lt_iff {cfg : Config} (h : cfg.WF) (k : Nat) :
    cfg.memCells < 2 ^ k ↔ cfg.pcW ≤ k :=
  (Nat.log2_lt (Nat.one_le_iff_ne_zero.1 h)).symm

theorem Config.memCells_le_iff {cfg : Config} (k : Nat) : cfg.memCells ≤ 2 ^ k ↔ cfg.addrW ≤ k := by
  have hpow : 1 ≤ 2 ^ k := Nat.one_le_two_pow
  unfold Config.addrW
  split
  · omega
  · rw [Nat.succ_le_iff, Nat.log2_lt (by omega)]
    omega

end Sys2Proof

namespace Sys2Proof.Machine

/-- Settles O55: a width holds a positive number exactly when it exceeds its logarithm, and MEM_CELLS addresses end
at MEM_CELLS - 1. -/
theorem widthsFollowTheCapacity : Obligations.WidthsFollowTheCapacity := by
  refine ⟨⟨rfl, Config.core_widths⟩, fun cfg hwf => ⟨Config.memCells_lt_iff hwf, Config.memCells_le_iff, ?_⟩⟩
  intro s h a ha
  exact (Nat.lt_of_lt_of_le ha h.lenLe).trans_le ((Config.memCells_le_iff cfg.addrW).2 (Nat.le_refl _))

end Sys2Proof.Machine
